-- ==== Sys2Proof/Word.lean ====
section
/-! DEFINITION. Word.lean: the word types of the machine (00_scope.md R6, R9, 30_encoding.md R92). -/

namespace Sys2Proof

/-- A memory cell, a general register, a timer, the immediate `kk` (R6: 8 bits). -/
abbrev Byte := BitVec 8

/-- An opcode word, `I`, `pc`, a call-stack slot (R6, R7: 16 bits). -/
abbrev Word := BitVec 16

/-- A 4-bit field: the count `n`, a nibble the decoder ignores (R92). -/
abbrev Nibble := BitVec 4

/-- A register selector `x` or `y`: every value names a register (30_encoding.md R92, 10_state.md R22). -/
abbrev RegIdx := BitVec 4

/-- The address field `nnn` (R92: 12 bits). -/
abbrev Addr12 := BitVec 12

/-- A snapshot of the 16 keys, `true` is pressed (10_state.md R35). -/
abbrev Keys := Vector Bool 16

end Sys2Proof
end

