-- ==== Sys2Proof/Syntax.lean ====
section
/-! DEFINITION. Syntax.lean: the 35 instructions of 30_encoding.md R98, in its order, one constructor a row.

Bits the decoder ignores (R96) and the unused `y` of the two shifts (R176, R178) are kept as operands, so that an
instruction determines its opcode word: the fault record holds that word (60_exceptions.md R260). Log 7, log 8. -/

namespace Sys2Proof

/-- The instruction set (30_encoding.md R98). -/
inductive Instr where
  /-- `00E0` clear-screen; `ign` is the ignored bits 11..8 (R140). -/
  | cls (ign : Nibble)
  /-- `00EE` return; `ign` is the ignored bits 11..8 (R141). -/
  | ret (ign : Nibble)
  /-- `1nnn` jump (R142). -/
  | jp (nnn : Addr12)
  /-- `2nnn` call (R143). -/
  | call (nnn : Addr12)
  /-- `Bnnn` indexed jump (R144). -/
  | jpV0 (nnn : Addr12)
  /-- `3xkk` skip if equal to an immediate (R150). -/
  | seImm (x : RegIdx) (kk : Byte)
  /-- `4xkk` skip if not equal to an immediate (R151). -/
  | sneImm (x : RegIdx) (kk : Byte)
  /-- `5xy0` skip if registers are equal; `ign` is the ignored bits 3..0 (R152). -/
  | seReg (x y : RegIdx) (ign : Nibble)
  /-- `9xy0` skip if registers differ; `ign` is the ignored bits 3..0 (R153). -/
  | sneReg (x y : RegIdx) (ign : Nibble)
  /-- `6xkk` load immediate (R160). -/
  | ldImm (x : RegIdx) (kk : Byte)
  /-- `7xkk` add immediate (R161). -/
  | addImm (x : RegIdx) (kk : Byte)
  /-- `8xy0` move (R170). -/
  | ldReg (x y : RegIdx)
  /-- `8xy1` OR (R171). -/
  | orReg (x y : RegIdx)
  /-- `8xy2` AND (R172). -/
  | andReg (x y : RegIdx)
  /-- `8xy3` XOR (R173). -/
  | xorReg (x y : RegIdx)
  /-- `8xy4` add with carry out (R174). -/
  | addReg (x y : RegIdx)
  /-- `8xy5` subtract (R175). -/
  | subReg (x y : RegIdx)
  /-- `8xy6` shift right; `y` is decoded and not used (R176). -/
  | shr (x y : RegIdx)
  /-- `8xy7` reverse subtract (R177). -/
  | subn (x y : RegIdx)
  /-- `8xyE` shift left; `y` is decoded and not used (R178). -/
  | shl (x y : RegIdx)
  /-- `Annn` load `I` (R190). -/
  | ldI (nnn : Addr12)
  /-- `Fx1E` add a register to `I` (R191). -/
  | addI (x : RegIdx)
  /-- `Cxkk` random (R192). -/
  | rnd (x : RegIdx) (kk : Byte)
  /-- `Dxyn` sprite draw (R200). -/
  | drw (x y : RegIdx) (n : Nibble)
  /-- `Ex9E` skip if key pressed (R210). -/
  | skp (x : RegIdx)
  /-- `ExA1` skip if key not pressed (R211). -/
  | sknp (x : RegIdx)
  /-- `Fx07` read the delay timer (R220). -/
  | ldVxDT (x : RegIdx)
  /-- `Fx0A` block until keypress (R221). -/
  | ldVxK (x : RegIdx)
  /-- `Fx15` set the delay timer (R222). -/
  | ldDTVx (x : RegIdx)
  /-- `Fx18` set the sound timer (R223). -/
  | ldSTVx (x : RegIdx)
  /-- `Fx29` glyph address (R224). -/
  | ldF (x : RegIdx)
  /-- `Fx30` large-glyph address (R225). -/
  | ldHF (x : RegIdx)
  /-- `Fx33` store binary-coded decimal (R226). -/
  | ldB (x : RegIdx)
  /-- `Fx55` store `V0..Vx` (R227). -/
  | stRegs (x : RegIdx)
  /-- `Fx65` load `V0..Vx` (R228). -/
  | ldRegs (x : RegIdx)
  deriving DecidableEq, Repr

end Sys2Proof
end

