-- ==== Sys2Proof/WellFormed.lean ====
section
/-! DEFINITION. WellFormed.lean: the canonical instructions (30_encoding.md R103).

Every operand field has exactly the width of its place in the word, so no operand can be out of range (R92:
"no register field can be illegal"). What is left to check is R103's canonical form: every bit the decoder ignores
(R96) is zero. The machine runs the other instructions too (R96, D2): no meaning and
no statement about execution assumes this predicate. -/

namespace Sys2Proof

/-- The canonical form of R103: every ignored bit is zero. The `y` of a shift is decoded (and not used), so it is no
ignored bit; R105's count of the canonical words agrees. -/
def Instr.wellFormed : Instr → Bool
  | .cls ign => ign == 0
  | .ret ign => ign == 0
  | .jp _ => true
  | .call _ => true
  | .jpV0 _ => true
  | .seImm _ _ => true
  | .sneImm _ _ => true
  | .seReg _ _ ign => ign == 0
  | .sneReg _ _ ign => ign == 0
  | .ldImm _ _ => true
  | .addImm _ _ => true
  | .ldReg _ _ => true
  | .orReg _ _ => true
  | .andReg _ _ => true
  | .xorReg _ _ => true
  | .addReg _ _ => true
  | .subReg _ _ => true
  | .shr _ _ => true
  | .subn _ _ => true
  | .shl _ _ => true
  | .ldI _ => true
  | .addI _ => true
  | .rnd _ _ => true
  | .drw _ _ _ => true
  | .skp _ => true
  | .sknp _ => true
  | .ldVxDT _ => true
  | .ldVxK _ => true
  | .ldDTVx _ => true
  | .ldSTVx _ => true
  | .ldF _ => true
  | .ldHF _ => true
  | .ldB _ => true
  | .stRegs _ => true
  | .ldRegs _ => true

end Sys2Proof
end

