-- ==== Sys2Proof/Decode.lean ====
section
/-! DEFINITION. Decode.lean: the decoder (30_encoding.md R107), the encoder, and the opcode map as data (R98).

The selector values are the spec's decision D1 (log 9); they stand in `decodeWord`, `encodeWord` and `Instr.row`, and
nowhere else. -/

namespace Sys2Proof

/-! ## Fields of an opcode word (30_encoding.md R92) -/

/-- `w[15:12]`, the primary selector (R94). -/
def familyOf (w : Word) : Nibble := w.extractLsb' 12 4

/-- `x` = `w[11:8]`. -/
def xOf (w : Word) : RegIdx := w.extractLsb' 8 4

/-- `y` = `w[7:4]`. -/
def yOf (w : Word) : RegIdx := w.extractLsb' 4 4

/-- `n` = `w[3:0]`. -/
def nOf (w : Word) : Nibble := w.extractLsb' 0 4

/-- `kk` = `w[7:0]`, also the low-byte selector of families 0, E, F (R95). -/
def kkOf (w : Word) : Byte := w.extractLsb' 0 8

/-- `nnn` = `w[11:0]`. -/
def nnnOf (w : Word) : Addr12 := w.extractLsb' 0 12

/-! ## Decoding (30_encoding.md R107) -/

/-- Family 0: the low byte selects (R99). -/
def decodeFamily0 (w : Word) : Option Instr :=
  match (kkOf w).toNat with
  | 0xE0 => some (.cls (xOf w))
  | 0xEE => some (.ret (xOf w))
  | _ => none

/-- Family 8: the low nibble selects (R100). -/
def decodeFamily8 (w : Word) : Option Instr :=
  match (nOf w).toNat with
  | 0x0 => some (.ldReg (xOf w) (yOf w))
  | 0x1 => some (.orReg (xOf w) (yOf w))
  | 0x2 => some (.andReg (xOf w) (yOf w))
  | 0x3 => some (.xorReg (xOf w) (yOf w))
  | 0x4 => some (.addReg (xOf w) (yOf w))
  | 0x5 => some (.subReg (xOf w) (yOf w))
  | 0x6 => some (.shr (xOf w) (yOf w))
  | 0x7 => some (.subn (xOf w) (yOf w))
  | 0xE => some (.shl (xOf w) (yOf w))
  | _ => none

/-- Family E: the low byte selects (R101). -/
def decodeFamilyE (w : Word) : Option Instr :=
  match (kkOf w).toNat with
  | 0x9E => some (.skp (xOf w))
  | 0xA1 => some (.sknp (xOf w))
  | _ => none

/-- Family F: the low byte selects (R102). -/
def decodeFamilyF (w : Word) : Option Instr :=
  match (kkOf w).toNat with
  | 0x07 => some (.ldVxDT (xOf w))
  | 0x0A => some (.ldVxK (xOf w))
  | 0x15 => some (.ldDTVx (xOf w))
  | 0x18 => some (.ldSTVx (xOf w))
  | 0x1E => some (.addI (xOf w))
  | 0x29 => some (.ldF (xOf w))
  | 0x30 => some (.ldHF (xOf w))
  | 0x33 => some (.ldB (xOf w))
  | 0x55 => some (.stRegs (xOf w))
  | 0x65 => some (.ldRegs (xOf w))
  | _ => none

/-- The decoder of R107, total on words; `none` is `Unimplemented` (R104). -/
def decodeWord (w : Word) : Option Instr :=
  match (familyOf w).toNat with
  | 0x0 => decodeFamily0 w
  | 0x1 => some (.jp (nnnOf w))
  | 0x2 => some (.call (nnnOf w))
  | 0x3 => some (.seImm (xOf w) (kkOf w))
  | 0x4 => some (.sneImm (xOf w) (kkOf w))
  | 0x5 => some (.seReg (xOf w) (yOf w) (nOf w))
  | 0x6 => some (.ldImm (xOf w) (kkOf w))
  | 0x7 => some (.addImm (xOf w) (kkOf w))
  | 0x8 => decodeFamily8 w
  | 0x9 => some (.sneReg (xOf w) (yOf w) (nOf w))
  | 0xA => some (.ldI (nnnOf w))
  | 0xB => some (.jpV0 (nnnOf w))
  | 0xC => some (.rnd (xOf w) (kkOf w))
  | 0xD => some (.drw (xOf w) (yOf w) (nOf w))
  | 0xE => decodeFamilyE w
  | _ => decodeFamilyF w

/-- Why bytes are no instruction. -/
inductive DecodeReject where
  /-- The word matches no defined instruction (30_encoding.md R104). -/
  | unimplemented (w : Word)
  /-- Fewer than two bytes: every instruction is two bytes long (30_encoding.md R90). -/
  | truncated
  deriving DecidableEq, Repr

/-- The big-endian word of two bytes (20_memory.md R62): the first holds bits 15..8. -/
def wordOf (hi lo : Byte) : Word := hi ++ lo

/-- Decoding bytes: the instruction and the bytes after it, or a rejection by name. -/
def decode : List Byte → Except DecodeReject (Instr × List Byte)
  | hi :: lo :: rest =>
    match decodeWord (wordOf hi lo) with
    | some i => .ok (i, rest)
    | none => .error (.unimplemented (wordOf hi lo))
  | _ => .error .truncated

/-! ## Encoding (30_encoding.md R91, R98) -/

/-- Formats A: family and `nnn`. -/
def formatA (f : Nibble) (nnn : Addr12) : Word := f ++ nnn

/-- Format I, S and Z: family, `x` (or the ignored nibble), `kk` (or the low-byte selector). -/
def formatI (f : Nibble) (x : RegIdx) (kk : Byte) : Word := f ++ (x ++ kk)

/-- Format R: family, `x`, `y`, low nibble. -/
def formatR (f : Nibble) (x y : RegIdx) (n : Nibble) : Word := f ++ (x ++ (y ++ n))

/-- The opcode word of an instruction (R98). -/
def encodeWord : Instr → Word
  | .cls ign => formatI 0x0 ign 0xE0
  | .ret ign => formatI 0x0 ign 0xEE
  | .jp nnn => formatA 0x1 nnn
  | .call nnn => formatA 0x2 nnn
  | .jpV0 nnn => formatA 0xB nnn
  | .seImm x kk => formatI 0x3 x kk
  | .sneImm x kk => formatI 0x4 x kk
  | .seReg x y ign => formatR 0x5 x y ign
  | .sneReg x y ign => formatR 0x9 x y ign
  | .ldImm x kk => formatI 0x6 x kk
  | .addImm x kk => formatI 0x7 x kk
  | .ldReg x y => formatR 0x8 x y 0x0
  | .orReg x y => formatR 0x8 x y 0x1
  | .andReg x y => formatR 0x8 x y 0x2
  | .xorReg x y => formatR 0x8 x y 0x3
  | .addReg x y => formatR 0x8 x y 0x4
  | .subReg x y => formatR 0x8 x y 0x5
  | .shr x y => formatR 0x8 x y 0x6
  | .subn x y => formatR 0x8 x y 0x7
  | .shl x y => formatR 0x8 x y 0xE
  | .ldI nnn => formatA 0xA nnn
  | .addI x => formatI 0xF x 0x1E
  | .rnd x kk => formatI 0xC x kk
  | .drw x y n => formatR 0xD x y n
  | .skp x => formatI 0xE x 0x9E
  | .sknp x => formatI 0xE x 0xA1
  | .ldVxDT x => formatI 0xF x 0x07
  | .ldVxK x => formatI 0xF x 0x0A
  | .ldDTVx x => formatI 0xF x 0x15
  | .ldSTVx x => formatI 0xF x 0x18
  | .ldF x => formatI 0xF x 0x29
  | .ldHF x => formatI 0xF x 0x30
  | .ldB x => formatI 0xF x 0x33
  | .stRegs x => formatI 0xF x 0x55
  | .ldRegs x => formatI 0xF x 0x65

/-- The byte at the lower address: bits 15..8 (20_memory.md R62). -/
def hiByte (w : Word) : Byte := w.extractLsb' 8 8

/-- The byte at the higher address: bits 7..0 (20_memory.md R62). -/
def loByte (w : Word) : Byte := w.extractLsb' 0 8

/-- The bytes of a word as memory holds them: big-endian (30_encoding.md R90). -/
def wordBytes (w : Word) : List Byte := [hiByte w, loByte w]

/-- The bytes of an instruction as memory holds them. -/
def encode (i : Instr) : List Byte := wordBytes (encodeWord i)

/-! ## The opcode map as data (30_encoding.md R98, opcode_table.json) -/

/-- One row of R98: `w` selects the row when `w & mask = bits`; R103's stricter mask beside it. -/
structure OpcodeRow where
  mnemonic : String
  mask : Word
  bits : Word
  canonicalMask : Word
  deriving DecidableEq, Repr

/-- The row of R98 that an instruction belongs to. -/
def Instr.row : Instr → OpcodeRow
  | .cls _ => ⟨"CLS", 0xF0FF, 0x00E0, 0xFFFF⟩
  | .ret _ => ⟨"RET", 0xF0FF, 0x00EE, 0xFFFF⟩
  | .jp _ => ⟨"JP_nnn", 0xF000, 0x1000, 0xF000⟩
  | .call _ => ⟨"CALL_nnn", 0xF000, 0x2000, 0xF000⟩
  | .jpV0 _ => ⟨"JP_V0__nnn", 0xF000, 0xB000, 0xF000⟩
  | .seImm _ _ => ⟨"SE_Vx__kk", 0xF000, 0x3000, 0xF000⟩
  | .sneImm _ _ => ⟨"SNE_Vx__kk", 0xF000, 0x4000, 0xF000⟩
  | .seReg _ _ _ => ⟨"SE_Vx__Vy", 0xF000, 0x5000, 0xF00F⟩
  | .sneReg _ _ _ => ⟨"SNE_Vx__Vy", 0xF000, 0x9000, 0xF00F⟩
  | .ldImm _ _ => ⟨"LD_Vx__kk", 0xF000, 0x6000, 0xF000⟩
  | .addImm _ _ => ⟨"ADD_Vx__kk", 0xF000, 0x7000, 0xF000⟩
  | .ldReg _ _ => ⟨"LD_Vx__Vy", 0xF00F, 0x8000, 0xF00F⟩
  | .orReg _ _ => ⟨"OR_Vx__Vy", 0xF00F, 0x8001, 0xF00F⟩
  | .andReg _ _ => ⟨"AND_Vx__Vy", 0xF00F, 0x8002, 0xF00F⟩
  | .xorReg _ _ => ⟨"XOR_Vx__Vy", 0xF00F, 0x8003, 0xF00F⟩
  | .addReg _ _ => ⟨"ADD_Vx__Vy", 0xF00F, 0x8004, 0xF00F⟩
  | .subReg _ _ => ⟨"SUB_Vx__Vy", 0xF00F, 0x8005, 0xF00F⟩
  | .shr _ _ => ⟨"SHR_Vx", 0xF00F, 0x8006, 0xF00F⟩
  | .subn _ _ => ⟨"SUBN_Vx__Vy", 0xF00F, 0x8007, 0xF00F⟩
  | .shl _ _ => ⟨"SHL_Vx", 0xF00F, 0x800E, 0xF00F⟩
  | .ldI _ => ⟨"LD_I__nnn", 0xF000, 0xA000, 0xF000⟩
  | .addI _ => ⟨"ADD_I__Vx", 0xF0FF, 0xF01E, 0xF0FF⟩
  | .rnd _ _ => ⟨"RND_Vx__kk", 0xF000, 0xC000, 0xF000⟩
  | .drw _ _ _ => ⟨"DRW_Vx__Vy__n", 0xF000, 0xD000, 0xF000⟩
  | .skp _ => ⟨"SKP_Vx", 0xF0FF, 0xE09E, 0xF0FF⟩
  | .sknp _ => ⟨"SKNP_Vx", 0xF0FF, 0xE0A1, 0xF0FF⟩
  | .ldVxDT _ => ⟨"LD_Vx__DT", 0xF0FF, 0xF007, 0xF0FF⟩
  | .ldVxK _ => ⟨"LD_Vx__K", 0xF0FF, 0xF00A, 0xF0FF⟩
  | .ldDTVx _ => ⟨"LD_DT__Vx", 0xF0FF, 0xF015, 0xF0FF⟩
  | .ldSTVx _ => ⟨"LD_ST__Vx", 0xF0FF, 0xF018, 0xF0FF⟩
  | .ldF _ => ⟨"LD_F__Vx", 0xF0FF, 0xF029, 0xF0FF⟩
  | .ldHF _ => ⟨"LD_HF__Vx", 0xF0FF, 0xF030, 0xF0FF⟩
  | .ldB _ => ⟨"LD_B__Vx", 0xF0FF, 0xF033, 0xF0FF⟩
  | .stRegs _ => ⟨"LD__I___Vx", 0xF0FF, 0xF055, 0xF0FF⟩
  | .ldRegs _ => ⟨"LD_Vx___I", 0xF0FF, 0xF065, 0xF0FF⟩

/-! ## Reading a word numbered as opcode_table.json numbers its bits -/

/-- The instruction word whose low `nbits` bits are those of `w`, the rest 0. -/
def tableWord (nbits w : Nat) : Word := BitVec.ofNat 16 (w % 2 ^ nbits)

/-- What the decoder reads from an instruction whose bits are `w`: the word goes to the decoder as memory holds it. -/
def decodeTableWord (nbits w : Nat) : Option Instr :=
  match decode (wordBytes (tableWord nbits w)) with
  | .ok (i, _) => some i
  | .error _ => none

end Sys2Proof
end

