-- ==== Sys2Proof/Config.lean ====
section
/-! DEFINITION. Config.lean: what is fixed for the machine (00_scope.md R6) and the parameters and inputs the spec
leaves free (R8), as opaque constants. The remaining sizes of R6 stand in types: 16 registers, keys and stack slots, a
glyph table of 80 bytes, a display of 32 rows of 64 pixels. -/

namespace Sys2Proof.Config

/-- `MEM_SIZE` (R6): addresses are 0 to 4095. -/
abbrev memSize : Nat := 4096

/-- `PROGRAM_BASE`, also the reset value of `pc` (R6, 10_state.md R42). -/
abbrev programBase : Nat := 0x200

/-- `MAX_PROGRAM_LEN` (R6): 4096 - 0x200. -/
abbrev maxProgramLen : Nat := 3584

/-- The glyph stride of `Fx29` (R6, 48_timer_misc.md R224). -/
abbrev glyphStride : Nat := 5

/-- The large-glyph stride of `Fx30` (R6, 48_timer_misc.md R225). -/
abbrev largeGlyphStride : Nat := 10

/-- `I_FLAG_LIMIT`, the threshold of the flag of `Fx1E` (R6, 45_indexed_move_random.md R191, U10). -/
abbrev iFlagLimit : Nat := 0x0F00

/-- `GLYPH_TABLE` (R8, D21): 80 bytes no rule constrains. Log 3. -/
opaque glyphTable : Vector Byte 80

/-- FREE VALUE. The key snapshot the driver supplies at the tick that this counter value numbers
(49_tick_timer_input_wait.md R241: "a free input under no law"). Log 1. -/
opaque keySnapshot : Nat → Keys

/-- FREE VALUE. The byte the random source delivers at the draw that this counter value numbers
(45_indexed_move_random.md R192: "a free value under no law"). Log 2. -/
opaque randomByte : Nat → Byte

end Sys2Proof.Config
end

