-- ==== Sys2Proof/Machine/State.lean ====
section
/-! DEFINITION. Machine/State.lean: the whole state of the machine (10_state.md R20) as plain data, the fault record
(60_exceptions.md R260), and the state after reset (R40 to R42). -/

namespace Sys2Proof.Machine

/-! ## The fault record (60_exceptions.md R260) -/

/-- The seven causes of R260. -/
inductive FaultCode where
  /-- Cause 1: decode of a word that is no instruction (R261). -/
  | unimplementedInstruction
  /-- Cause 2: a call with a full stack (R262). -/
  | stackOverflow
  /-- Cause 3: a return with an empty stack (R263). -/
  | stackUnderflow
  /-- Cause 4: a fetch or data access at an address of 4096 or more (R264). -/
  | addressOutOfRange
  /-- Cause 5: a fetch at an odd `pc` (R265). -/
  | misalignedPC
  /-- Cause 6: a key skip with `V[x]` of 16 or more (R266). -/
  | keyIndexOutOfRange
  /-- Cause 7: a reset with a program longer than 3584 bytes (R267). -/
  | loadOutOfRange
  deriving DecidableEq, Repr

/-- The record latched by a fault: `(code, opcode, address, value)` (R260, C12). -/
structure FaultRecord where
  code : FaultCode
  opcode : Word
  address : Word
  value : Byte
  deriving DecidableEq, Repr

/-! ## The driver's moves (20_memory.md R71, 60_exceptions.md R281); log 1 -/

/-- What the driver does to the core between two states. -/
inductive DriverMove where
  /-- It calls the tick with a key snapshot (49_tick_timer_input_wait.md R240). -/
  | tick (k : Keys)
  /-- It resets the core with a glyph table and a program (70_reset_and_hazards.md R290). -/
  | reset (glyphs : Vector Byte 80) (program : List Byte)
  deriving DecidableEq, Repr

/-- The driver's inputs that the core has not taken yet. The model's own, not the spec's state (R20: "the key snapshots
and random bytes are inputs"). Where a list is empty the next input is free: an opaque constant of Config at the
counter. Log 1, log 2. -/
structure Driver where
  /-- Moves already fixed, next first; when none is left the driver ticks with a free snapshot. -/
  moves : List DriverMove
  /-- How many moves the core has taken. -/
  ticks : Nat
  /-- Random bytes already fixed, next first; when none is left the byte is free. -/
  draws : List Byte
  /-- How many random bytes the core has drawn. -/
  drawn : Nat
  deriving DecidableEq, Repr

/-! ## The state (10_state.md R20) -/

/-- Memory as (address, byte) pairs, addresses rising, none equal to what an unlisted address reads as. -/
abbrev Memory := List Host.Cell

/-- The display: 32 rows of 64 pixels (R33). -/
abbrev Display := Vector (Vector Bool 64) 32

/-- The Machine State of R20, and the driver's inputs still to come. -/
structure State where
  /-- `memory` (R21). -/
  mem : Memory
  /-- `V0`..`VF` (R22). -/
  V : Vector Byte 16
  /-- `index_register` (R25). -/
  I : Word
  /-- `program_counter` (R26). -/
  pc : Word
  /-- `call_stack` (R30). -/
  stack : Vector Word 16
  /-- The number of return addresses held, 0 to 16 (R30). -/
  SP : Fin 17
  /-- `delay_timer` (R32). -/
  DT : Byte
  /-- `sound_timer` (R32). -/
  ST : Byte
  /-- `display` (R33). -/
  disp : Display
  /-- `redraw_pending` (R34). -/
  redrawPending : Bool
  /-- `input_state` (R35). -/
  keys : Keys
  /-- `awaiting_key` (R36): `true` is the state `AwaitingKey`. -/
  awaitingKey : Bool
  /-- The target register of the wait (R36). -/
  waitReg : RegIdx
  /-- The latched fault (R37). -/
  fault : Option FaultRecord
  /-- The model's own: the driver's inputs still to come. -/
  driver : Driver
  deriving DecidableEq, Repr

/-! ## The ways a step can stop -/

/-- A step of this machine never stops with a fault: the seven fatal conditions of the spec latch a record in
`State.fault` and the machine goes on ticking without effect (60_exceptions.md R268, R270), which is a next state.
So no constructor: nobody raises one. Log 5. -/
inductive Fault where
  deriving DecidableEq, Repr

/-- Refusals. -/
inductive Refusal where
  /-- Raised by an arm of `exec` for an instruction that has no meaning yet; safe. Every instruction has one, so no arm
  raises it. -/
  | notModelled (mnemonic : String)
  deriving DecidableEq, Repr

/-! ## Reset (10_state.md R40 to R42) -/

/-- The machine after a reset with the glyph table of Config and an empty program: memory reads as its reset contents
everywhere (nothing listed, R40), `pc` = 0x200 (R42), all else zero (R41). Log 4, log 6. -/
def State.reset : State where
  mem := []
  V := Vector.replicate 16 0
  I := 0
  pc := 0x200
  stack := Vector.replicate 16 0
  SP := 0
  DT := 0
  ST := 0
  disp := Vector.replicate 32 (Vector.replicate 64 false)
  redrawPending := false
  keys := Vector.replicate 16 false
  awaitingKey := false
  waitReg := 0
  fault := none
  driver := { moves := [], ticks := 0, draws := [], drawn := 0 }

end Sys2Proof.Machine
end

