-- ==== Sys2Proof/Machine/Ops.lean ====
section
/-! DEFINITION. Machine/Ops.lean: the named operations over memory, registers, the call stack, the display and the
driver's inputs; the three control-flow actions; and raising a fault. -/

namespace Sys2Proof.Machine

/-! ## Memory (20_memory.md) -/

/-- What an address that nothing has written reads as: its reset contents (10_state.md R40), that is the glyph table at
0x000..0x04F and zero elsewhere. Log 3. -/
def Memory.unlisted (a : Nat) : Byte :=
  if h : a < 80 then Config.glyphTable[a] else 0

/-- The byte at an address (R68: the last byte written to it). -/
def Memory.read : Memory → Nat → Byte
  | [], a => Memory.unlisted a
  | (b, v) :: rest, a => if a = b then v else Memory.read rest a

/-- Lists a byte at an address, in address order. -/
def Memory.insert : Memory → Nat → Byte → Memory
  | [], a, v => [(a, v)]
  | (b, w) :: rest, a, v =>
    if a < b then (a, v) :: (b, w) :: rest
    else if a = b then (a, v) :: rest
    else (b, w) :: Memory.insert rest a v

/-- Takes an address off the list. -/
def Memory.erase : Memory → Nat → Memory
  | [], _ => []
  | (b, w) :: rest, a => if a = b then Memory.erase rest a else (b, w) :: Memory.erase rest a

/-- `MemWrite(a, 1, v)` of 00_scope.md R11, the range check made before; keeps the canonical form. -/
def Memory.write (m : Memory) (a : Nat) (v : Byte) : Memory :=
  if v = Memory.unlisted a then Memory.erase m a else Memory.insert m a v

/-- Bytes at ascending addresses from `a` (20_memory.md R63). -/
def Memory.writeBytes : Memory → Nat → List Byte → Memory
  | m, _, [] => m
  | m, a, v :: vs => Memory.writeBytes (Memory.write m a v) (a + 1) vs

/-- The `n` bytes from `a` (R63). -/
def Memory.readBytes (m : Memory) (a n : Nat) : List Byte :=
  (List.range n).map fun k => Memory.read m (a + k)

/-- The canonical form: addresses strictly rising, inside memory, no byte equal to what the address reads as unlisted. -/
abbrev Memory.wf (m : Memory) : Prop :=
  m.Pairwise (fun c d => c.1 < d.1) ∧ ∀ c ∈ m, c.1 < Config.memSize ∧ c.2 ≠ Memory.unlisted c.1

/-- The lowest out-of-range address of the `n` bytes from `a`, if one is out of range (20_memory.md R64, R65): the
addresses are mathematical integers and never wrap, and the lowest bad one is `max(a, 4096)` (60_exceptions.md R264). -/
def badAddress (a n : Nat) : Option Nat :=
  if n = 0 then none
  else if a + n ≤ Config.memSize then none
  else some (max a Config.memSize)

/-! ## General registers (10_state.md R22, R23) -/

/-- `V[x]`. -/
def State.reg (s : State) (x : RegIdx) : Byte := s.V[x.toNat]'x.isLt

/-- `V[x] <- v`. -/
def State.setReg (s : State) (x : RegIdx) (v : Byte) : State :=
  { s with V := s.V.set x.toNat v x.isLt }

/-- The selector of `VF` (R23). -/
def vf : RegIdx := 15

/-! ## The call stack (10_state.md R30, D5) -/

/-- Push: `stack[SP] <- r; SP <- SP + 1`; none on a full stack (`SP` = 16). -/
def State.push (s : State) (r : Word) : Option State :=
  if h : s.SP.val < 16 then
    some { s with stack := s.stack.set s.SP.val r h, SP := ⟨s.SP.val + 1, by omega⟩ }
  else none

/-- Pop: `SP <- SP - 1`, then `stack[SP]`; none on an empty stack. The slot keeps its stale value. -/
def State.pop (s : State) : Option (Word × State) :=
  if h : s.SP.val = 0 then none
  else some (s.stack[s.SP.val - 1]'(by omega), { s with SP := ⟨s.SP.val - 1, by omega⟩ })

/-! ## Control-flow actions (40_engine_fetch_decode_actions.md R126 to R129) -/

/-- The three actions: the only way `pc` changes. -/
inductive Action where
  | next
  | skip
  | jump (a : Word)
  deriving DecidableEq, Repr

/-- `skip_if(c)` (R129). -/
def skipIf (c : Bool) : Action := if c then .skip else .next

/-- The `pc` an action leads to (R126 to R128). -/
def actionTarget (a : Action) (pc : Word) : Word :=
  match a with
  | .next => pc + 2
  | .skip => pc + 4
  | .jump t => t

/-- What an instruction's meaning answers. -/
abbrev Result := Host.Outcome State Fault Refusal

/-- An instruction that completed: its state with the action applied to `pc`, without any check (R125). -/
def complete (a : Action) (s : State) : Result :=
  .next { s with pc := actionTarget a s.pc }

/-! ## Taking a fault (60_exceptions.md R268, R269) -/

/-- `raise F(info)`: the record is latched and NOTHING else changes; no handler, nothing saved, `pc` keeps the address
of the faulting instruction. There is no return from a fault (R270). -/
def raise (r : FaultRecord) (s : State) : Result :=
  .next { s with fault := some r }

/-- The record of a fault of the instruction `i` at `pc` (R260, causes 2, 3): the opcode word is the one `i` was decoded
from. Log 8. -/
def instrFault (code : FaultCode) (i : Instr) (s : State) : FaultRecord :=
  { code := code, opcode := encodeWord i, address := s.pc, value := 0 }

/-- The record of cause 6: it also holds the key index (R260, R266). -/
def keyFault (i : Instr) (index : Byte) (s : State) : FaultRecord :=
  { code := .keyIndexOutOfRange, opcode := encodeWord i, address := s.pc, value := index }

/-- The record of cause 4 of a data access: the lowest out-of-range address (R260, R264). -/
def addressFault (i : Instr) (bad : Nat) : FaultRecord :=
  { code := .addressOutOfRange, opcode := encodeWord i, address := BitVec.ofNat 16 bad, value := 0 }

/-! ## The display (10_state.md R33) -/

/-- The pixel at row `r`, column `c`. -/
def Display.pixel (d : Display) (r : Fin 32) (c : Fin 64) : Bool := (d[r.val]'r.isLt)[c.val]'c.isLt

/-- The display with one pixel replaced. -/
def Display.setPixel (d : Display) (r : Fin 32) (c : Fin 64) (b : Bool) : Display :=
  d.set r.val ((d[r.val]'r.isLt).set c.val b c.isLt) r.isLt

/-- The display with every pixel 0. -/
def Display.blank : Display := Vector.replicate 32 (Vector.replicate 64 false)

/-! ## The driver's inputs; log 1, log 2 -/

/-- The driver's next move: the first fixed one, else a tick with a free snapshot. -/
def State.nextMove (s : State) : DriverMove :=
  match s.driver.moves with
  | m :: _ => m
  | [] => .tick (Config.keySnapshot s.driver.ticks)

/-- The state with the driver's next move taken. -/
def State.takeMove (s : State) : State :=
  { s with driver := { s.driver with moves := s.driver.moves.tail, ticks := s.driver.ticks + 1 } }

/-- `draw_rand()` (45_indexed_move_random.md R192): the next random byte, free where the driver has fixed none. -/
def State.nextDraw (s : State) : Byte :=
  match s.driver.draws with
  | b :: _ => b
  | [] => Config.randomByte s.driver.drawn

/-- The state with one random byte consumed. -/
def State.takeDraw (s : State) : State :=
  { s with driver := { s.driver with draws := s.driver.draws.tail, drawn := s.driver.drawn + 1 } }

end Sys2Proof.Machine
end

