-- ==== Sys2Proof/Machine/Flags.lean ====
section
/-! DEFINITION. Machine/Flags.lean: the flag values of `VF` (10_state.md R24) and the order in which flag and result
are written (44_register_alu.md R179). -/

namespace Sys2Proof.Machine

/-- A flag is 0x00 or 0x01 as a full register value (44_register_alu.md R180), and always written (R24, D3). -/
def flagByte (b : Bool) : Byte := if b then 1 else 0

/-- Carry out: the 9-bit sum exceeds 255 (R174). -/
def carryFlag (a b : Byte) : Byte := flagByte (decide (a.toNat + b.toNat > 255))

/-- No borrow: the minuend is strictly greater (R175, R177, U9). -/
def noBorrowFlag (minuend subtrahend : Byte) : Byte := flagByte (decide (minuend.toNat > subtrahend.toNat))

/-- The bit a right shift moves out: bit 0 (R176). -/
def shiftRightFlag (a : Byte) : Byte := flagByte (a.getLsbD 0)

/-- The bit a left shift moves out: bit 7 (R178). -/
def shiftLeftFlag (a : Byte) : Byte := flagByte (a.getLsbD 7)

/-- The new `I` exceeds 0x0F00 (R191, U10). -/
def indexFlag (newI : Word) : Byte := flagByte (decide (newI.toNat > Config.iFlagLimit))

/-- Flag first, then result, so that with `x` = 0xF the result survives (R179, C2, D4). -/
def State.setFlagThenReg (s : State) (x : RegIdx) (flag result : Byte) : State :=
  (s.setReg vf flag).setReg x result

end Sys2Proof.Machine
end

