-- ==== Sys2Proof/Machine/Alu.lean ====
section
/-! DEFINITION. Machine/Alu.lean: the register ALU family `8xyn` (44_register_alu.md R170 to R180). -/

namespace Sys2Proof.Machine

/-- `8xy0` (R170). -/
def execLdReg (x y : RegIdx) (s : State) : Result :=
  complete .next (s.setReg x (s.reg y))

/-- `8xy1` (R171): no flag. -/
def execOrReg (x y : RegIdx) (s : State) : Result :=
  complete .next (s.setReg x (s.reg x ||| s.reg y))

/-- `8xy2` (R172): no flag. -/
def execAndReg (x y : RegIdx) (s : State) : Result :=
  complete .next (s.setReg x (s.reg x &&& s.reg y))

/-- `8xy3` (R173): no flag. -/
def execXorReg (x y : RegIdx) (s : State) : Result :=
  complete .next (s.setReg x (s.reg x ^^^ s.reg y))

/-- `8xy4` (R174): no carry input. -/
def execAddReg (x y : RegIdx) (s : State) : Result :=
  complete .next (s.setFlagThenReg x (carryFlag (s.reg x) (s.reg y)) (s.reg x + s.reg y))

/-- `8xy5` (R175): no borrow input. -/
def execSubReg (x y : RegIdx) (s : State) : Result :=
  complete .next (s.setFlagThenReg x (noBorrowFlag (s.reg x) (s.reg y)) (s.reg x - s.reg y))

/-- `8xy6` (R176): `V[y]` is not read. -/
def execShr (x _y : RegIdx) (s : State) : Result :=
  complete .next (s.setFlagThenReg x (shiftRightFlag (s.reg x)) (s.reg x >>> 1))

/-- `8xy7` (R177): the destination is still `V[x]`. -/
def execSubn (x y : RegIdx) (s : State) : Result :=
  complete .next (s.setFlagThenReg x (noBorrowFlag (s.reg y) (s.reg x)) (s.reg y - s.reg x))

/-- `8xyE` (R178): `V[y]` is not read. -/
def execShl (x _y : RegIdx) (s : State) : Result :=
  complete .next (s.setFlagThenReg x (shiftLeftFlag (s.reg x)) (s.reg x <<< 1))

end Sys2Proof.Machine
end

