-- ==== Sys2Proof/Machine/Operands.lean ====
section
/-! DEFINITION. Machine/Operands.lean: the operand forms (00_scope.md R10, 30_encoding.md R93): `nnn` zero-extended, `I`
plus an offset, glyph addresses, the key that a register names, decimal digits, sprite bits. -/

namespace Sys2Proof.Machine

/-- `zext_16(nnn)` (R93). -/
def addrOperand (nnn : Addr12) : Word := nnn.setWidth 16

/-- The target of the indexed jump: `zext_16(nnn) + zext_16(V[0])`, not reduced to 12 bits (R144, D10). -/
def indexedTarget (nnn : Addr12) (s : State) : Word := nnn.setWidth 16 + (s.reg 0).setWidth 16

/-- The address of the first byte of an `I`-relative access, a mathematical integer (20_memory.md R64). -/
def dataBase (s : State) : Nat := s.I.toNat

/-- How many registers `Fx55` and `Fx65` move: `x + 1` (R227, C5). -/
def regCount (x : RegIdx) : Nat := x.toNat + 1

/-- `V[0]..V[x]`, the bytes that `Fx55` stores in this order (R227). -/
def regBytes (s : State) (x : RegIdx) : List Byte := s.V.toList.take (regCount x)

/-- `V[0..15]` with `V[i] <- mem[I + i]` for i = 0..x (R228). -/
def loadedRegs (s : State) (x : RegIdx) : Vector Byte 16 :=
  Vector.ofFn fun i : Fin 16 =>
    if i.val < regCount x then Memory.read s.mem (dataBase s + i.val) else s.V[i.val]'i.isLt

/-- `zext_16(V[x]) * 5`, no mask (R224, D11). -/
def glyphAddress (v : Byte) : Word := BitVec.ofNat 16 (v.toNat * Config.glyphStride)

/-- `zext_16(V[x]) * 10`, no mask (R225, D11). -/
def largeGlyphAddress (v : Byte) : Word := BitVec.ofNat 16 (v.toNat * Config.largeGlyphStride)

/-- Hundreds, tens, units (R226). -/
def decimalDigits (v : Byte) : List Byte :=
  [BitVec.ofNat 8 (v.toNat / 100), BitVec.ofNat 8 (v.toNat / 10 % 10), BitVec.ofNat 8 (v.toNat % 10)]

/-- The state of the key whose index is `v`; none for an index of 16 or more, which is not masked (R212, D12). -/
def keyState (s : State) (v : Byte) : Option Bool :=
  if h : v.toNat < 16 then some (s.keys[v.toNat]'h) else none

/-! ## Sprites (46_sprite_draw.md R200 to R203) -/

/-- The display row of sprite row `r`: `(cy + r) mod 32` (R201). -/
def spriteRow (cy r : Nat) : Fin 32 := Fin.ofNat 32 (cy + r)

/-- The display column of sprite column `c`: `(cx + c) mod 64` (R201). -/
def spriteCol (cx c : Nat) : Fin 64 := Fin.ofNat 64 (cx + c)

/-- The bit of column `c` of a sprite byte: the most significant bit is column 0 (R202). -/
def spriteBit (b : Byte) (c : Nat) : Bool := b.getLsbD (7 - c)

/-- One step of the blit: XOR the sprite bit into the pixel, and OR an erase-collision into the flag (R203). -/
def blitPixel (r : Fin 32) (c : Fin 64) (bit : Bool) (p : Display × Bool) : Display × Bool :=
  (Display.setPixel p.1 r c (Display.pixel p.1 r c ^^ bit), p.2 || (Display.pixel p.1 r c && bit))

/-- One sprite row: columns 0 to 7 in order. -/
def blitRow (cx : Nat) (r : Fin 32) (b : Byte) (p : Display × Bool) : Display × Bool :=
  (List.range 8).foldl (fun p c => blitPixel r (spriteCol cx c) (spriteBit b c) p) p

/-- The sprite rows from row `r` on, in order. -/
def blitRows (cx cy : Nat) : Nat → List Byte → Display × Bool → Display × Bool
  | _, [], p => p
  | r, b :: bs, p => blitRows cx cy (r + 1) bs (blitRow cx (spriteRow cy r) b p)

/-- The whole blit of R200 on a display: the new display and whether any position collided. -/
def blit (cx cy : Nat) (bytes : List Byte) (d : Display) : Display × Bool :=
  blitRows cx cy 0 bytes (d, false)

end Sys2Proof.Machine
end

