-- ==== Sys2Proof/Machine/Control.lean ====
section
/-! DEFINITION. Machine/Control.lean: screen/control and jump/call (41_screen_control_jump_call.md R140 to R144). -/

namespace Sys2Proof.Machine

/-- `00E0` (R140): every pixel 0, `redraw_pending` set; bits 11..8 are ignored (R96). -/
def execCls (_ign : Nibble) (s : State) : Result :=
  complete .next { s with disp := Display.blank, redrawPending := true }

/-- `00EE` (R141): pops and jumps there; an empty stack raises `StackUnderflow`. -/
def execRet (ign : Nibble) (s : State) : Result :=
  match s.pop with
  | some (r, t) => complete (.jump r) t
  | none => raise (instrFault .stackUnderflow (.ret ign) s) s

/-- `1nnn` (R142). -/
def execJp (nnn : Addr12) (s : State) : Result :=
  complete (.jump (addrOperand nnn)) s

/-- `2nnn` (R143): pushes `pc + 2` and jumps; a full stack raises `StackOverflow`. -/
def execCall (nnn : Addr12) (s : State) : Result :=
  match s.push (s.pc + 2) with
  | some t => complete (.jump (addrOperand nnn)) t
  | none => raise (instrFault .stackOverflow (.call nnn) s) s

/-- `Bnnn` (R144). -/
def execJpV0 (nnn : Addr12) (s : State) : Result :=
  complete (.jump (indexedTarget nnn s)) s

end Sys2Proof.Machine
end

