-- ==== Sys2Proof/Machine/Immediate.lean ====
section
/-! DEFINITION. Machine/Immediate.lean: load and add immediate (43_load_add_immediate.md R160, R161). -/

namespace Sys2Proof.Machine

/-- `6xkk` (R160). -/
def execLdImm (x : RegIdx) (kk : Byte) (s : State) : Result :=
  complete .next (s.setReg x kk)

/-- `7xkk` (R161): modulo 256, no flag. -/
def execAddImm (x : RegIdx) (kk : Byte) (s : State) : Result :=
  complete .next (s.setReg x (s.reg x + kk))

end Sys2Proof.Machine
end

