-- ==== Sys2Proof/Machine/Index.lean ====
section
/-! DEFINITION. Machine/Index.lean: indexed move and random (45_indexed_move_random.md R190 to R192). -/

namespace Sys2Proof.Machine

/-- `Annn` (R190). -/
def execLdI (nnn : Addr12) (s : State) : Result :=
  complete .next { s with I := addrOperand nnn }

/-- `I + zext_16(V[x])`, truncated to 16 bits (R191, D10). -/
def indexSum (x : RegIdx) (s : State) : Word := s.I + (s.reg x).setWidth 16

/-- `Fx1E` (R191): the addend is read before `VF` is written (D4). -/
def execAddI (x : RegIdx) (s : State) : Result :=
  complete .next { s.setReg vf (indexFlag (indexSum x s)) with I := indexSum x s }

/-- `Cxkk` (R192): one random byte is consumed, whatever `kk`. -/
def execRnd (x : RegIdx) (kk : Byte) (s : State) : Result :=
  complete .next (s.takeDraw.setReg x (s.nextDraw &&& kk))

end Sys2Proof.Machine
end

