-- ==== Sys2Proof/Machine/KeySkip.lean ====
section
/-! DEFINITION. Machine/KeySkip.lean: the key skips (47_key_skip.md R210 to R212). -/

namespace Sys2Proof.Machine

/-- `Ex9E` (R210): skips if the key that `V[x]` names is pressed; an index of 16 or more raises `KeyIndexOutOfRange`. -/
def execSkp (x : RegIdx) (s : State) : Result :=
  match keyState s (s.reg x) with
  | some pressed => complete (skipIf pressed) s
  | none => raise (keyFault (.skp x) (s.reg x) s) s

/-- `ExA1` (R211): skips if that key is not pressed. -/
def execSknp (x : RegIdx) (s : State) : Result :=
  match keyState s (s.reg x) with
  | some pressed => complete (skipIf (!pressed)) s
  | none => raise (keyFault (.sknp x) (s.reg x) s) s

end Sys2Proof.Machine
end

