-- ==== Sys2Proof/Machine/Skip.lean ====
section
/-! DEFINITION. Machine/Skip.lean: the skip-compare instructions (42_skip_compare.md R150 to R153). -/

namespace Sys2Proof.Machine

/-- `3xkk` (R150). -/
def execSeImm (x : RegIdx) (kk : Byte) (s : State) : Result :=
  complete (skipIf (s.reg x == kk)) s

/-- `4xkk` (R151). -/
def execSneImm (x : RegIdx) (kk : Byte) (s : State) : Result :=
  complete (skipIf (s.reg x != kk)) s

/-- `5xy0` (R152); the low nibble is ignored (R96). -/
def execSeReg (x y : RegIdx) (_ign : Nibble) (s : State) : Result :=
  complete (skipIf (s.reg x == s.reg y)) s

/-- `9xy0` (R153); the low nibble is ignored (R96). -/
def execSneReg (x y : RegIdx) (_ign : Nibble) (s : State) : Result :=
  complete (skipIf (s.reg x != s.reg y)) s

end Sys2Proof.Machine
end

