-- ==== Sys2Proof/Machine/Sprite.lean ====
section
/-! DEFINITION. Machine/Sprite.lean: the sprite draw `Dxyn` (46_sprite_draw.md R200 to R207). -/

namespace Sys2Proof.Machine

/-- The bytes of the sprite: `mem[I]` to `mem[I + n - 1]` (R202). -/
def spriteBytes (n : Nibble) (s : State) : List Byte :=
  Memory.readBytes s.mem (dataBase s) n.toNat

/-- What the draw makes of the display, from coordinates latched before `VF` is touched (R200, R204). -/
def drawResult (x y : RegIdx) (n : Nibble) (s : State) : Display × Bool :=
  blit (s.reg x).toNat (s.reg y).toNat (spriteBytes n s) s.disp

/-- `Dxyn` (R200): all addresses are checked before anything changes (R206); height 0 draws nothing, checks nothing and
still writes `VF` and sets `redraw_pending` (R205). -/
def execDrw (x y : RegIdx) (n : Nibble) (s : State) : Result :=
  match badAddress (dataBase s) n.toNat with
  | some bad => raise (addressFault (.drw x y n) bad) s
  | none =>
    complete .next
      { s.setReg vf (flagByte (drawResult x y n s).2) with disp := (drawResult x y n s).1, redrawPending := true }

end Sys2Proof.Machine
end

