-- ==== Sys2Proof/Machine/TimerMisc.lean ====
section
/-! DEFINITION. Machine/TimerMisc.lean: the timer/misc family `Fxnn` (48_timer_misc.md R220 to R229). All take the
action `Next`; none changes `I` but the two glyph addresses (R229, D14). -/

namespace Sys2Proof.Machine

/-- `Fx07` (R220): `DT` before this tick's decrement. -/
def execLdVxDT (x : RegIdx) (s : State) : Result :=
  complete .next (s.setReg x s.DT)

/-- `Fx0A` (R221): enters `AwaitingKey`; it does not look at `keys`. -/
def execLdVxK (x : RegIdx) (s : State) : Result :=
  complete .next { s with awaitingKey := true, waitReg := x }

/-- `Fx15` (R222). -/
def execLdDTVx (x : RegIdx) (s : State) : Result :=
  complete .next { s with DT := s.reg x }

/-- `Fx18` (R223). -/
def execLdSTVx (x : RegIdx) (s : State) : Result :=
  complete .next { s with ST := s.reg x }

/-- `Fx29` (R224). -/
def execLdF (x : RegIdx) (s : State) : Result :=
  complete .next { s with I := glyphAddress (s.reg x) }

/-- `Fx30` (R225). -/
def execLdHF (x : RegIdx) (s : State) : Result :=
  complete .next { s with I := largeGlyphAddress (s.reg x) }

/-- `Fx33` (R226): three digits at `I`, `I+1`, `I+2`, the range checked before any write. -/
def execLdB (x : RegIdx) (s : State) : Result :=
  match badAddress (dataBase s) 3 with
  | some bad => raise (addressFault (.ldB x) bad) s
  | none => complete .next { s with mem := Memory.writeBytes s.mem (dataBase s) (decimalDigits (s.reg x)) }

/-- `Fx55` (R227): `V[0]..V[x]` at `I`..`I+x`, the range checked before any write. -/
def execStRegs (x : RegIdx) (s : State) : Result :=
  match badAddress (dataBase s) (regCount x) with
  | some bad => raise (addressFault (.stRegs x) bad) s
  | none => complete .next { s with mem := Memory.writeBytes s.mem (dataBase s) (regBytes s x) }

/-- `Fx65` (R228): `V[0]..V[x]` from `I`..`I+x`, the range checked before any write. -/
def execLdRegs (x : RegIdx) (s : State) : Result :=
  match badAddress (dataBase s) (regCount x) with
  | some bad => raise (addressFault (.ldRegs x) bad) s
  | none => complete .next { s with V := loadedRegs s x }

end Sys2Proof.Machine
end

