-- ==== Sys2Proof/Machine/Tick.lean ====
section
/-! DEFINITION. Machine/Tick.lean: the engine's `step()` (40_engine_fetch_decode_actions.md R120 to R131) and the tick
around it (49_tick_timer_input_wait.md R240 to R251). -/

namespace Sys2Proof.Machine

/-! ## The engine: fetch, decode, execute, apply (R131) -/

/-- The record of a fault of the fetch itself: no opcode (60_exceptions.md R260). -/
def fetchFault (code : FaultCode) (address : Word) : FaultRecord :=
  { code := code, opcode := 0, address := address, value := 0 }

/-- The record of cause 1: the offending word and its address (R261). -/
def unimplementedFault (w : Word) (s : State) : FaultRecord :=
  { code := .unimplementedInstruction, opcode := w, address := s.pc, value := 0 }

/-- `fetch()` of R121: the range check, then the alignment check, then the big-endian word at `pc`. -/
def fetch (s : State) : Except FaultRecord Word :=
  if s.pc.toNat + 1 ≥ Config.memSize then
    .error (fetchFault .addressOutOfRange (if s.pc.toNat ≥ Config.memSize then s.pc else s.pc + 1))
  else if s.pc.toNat % 2 = 1 then .error (fetchFault .misalignedPC s.pc)
  else .ok (wordOf (Memory.read s.mem s.pc.toNat) (Memory.read s.mem (s.pc.toNat + 1)))

/-- `step()` of R131. -/
def engineStep (s : State) : Result :=
  match fetch s with
  | .error r => raise r s
  | .ok w =>
    match decodeWord w with
    | none => raise (unimplementedFault w s) s
    | some i => exec i s

/-! ## The tick (R240) -/

/-- A fault is latched: the core is halted (R249). -/
def State.halted (s : State) : Bool := s.fault.isSome

/-- The input latch (R241) and the redraw clear (R242). -/
def State.beginTick (k : Keys) (s : State) : State :=
  { s with keys := k, redrawPending := false }

/-- A timer one tick later: floored at 0 (R246). -/
def timerDown (v : Byte) : Byte := if v = 0 then 0 else v - 1

/-- Both timers, independently (R246). -/
def State.countDown (s : State) : State :=
  { s with DT := timerDown s.DT, ST := timerDown s.ST }

/-- The lowest pressed key (R244). -/
def firstPressed (k : Keys) : Option (Fin 16) :=
  (List.finRange 16).find? fun j => k[j.val]'j.isLt

/-- `scan()` of R244: the lowest pressed key's index goes to the recorded register and the wait ends. -/
def State.scan (s : State) : State :=
  match firstPressed s.keys with
  | some j => { s.setReg s.waitReg (BitVec.ofNat 8 j.val) with awaitingKey := false }
  | none => s

/-- The end of a `Running` tick: the timers count down unless the step raised a fault (R246, R248). -/
def endTick (r : Result) : Result :=
  match r with
  | .next t => if t.halted then .next t else .next t.countDown
  | .fault f => .fault f
  | .refused f => .refused f

/-- `tick(k)` of R240. -/
def tick (k : Keys) (s : State) : Result :=
  if s.halted then .next s
  else if s.awaitingKey then .next (s.beginTick k).scan
  else endTick (engineStep (s.beginTick k))

end Sys2Proof.Machine
end

