-- ==== Sys2Proof/Machine/Ports.lean ====
section
/-! DEFINITION. Machine/Ports.lean: the core's boundary (60_exceptions.md R276 to R281): the reset port
(70_reset_and_hazards.md R290 to R293), the outputs, and one move of the driver. -/

namespace Sys2Proof.Machine

/-! ## Reset (R290) -/

/-- Memory after the glyph table is loaded (R291): every other byte is zero (R290). -/
def glyphMemory (g : Vector Byte 80) : Memory := Memory.writeBytes [] 0 g.toList

/-- The record of cause 7 (R267, D27). -/
def loadFault : FaultRecord :=
  { code := .loadOutOfRange, opcode := 0, address := 0x1000, value := 0 }

/-- `reset(g, p)` of R290: the whole state initialised, then the program copied verbatim to 0x200, or no byte of it and
the machine halted where it is longer than 3584 bytes (R292). The driver's inputs are not the machine's state and are
kept. -/
def resetWith (g : Vector Byte 80) (p : List Byte) (d : Driver) : State :=
  if p.length > Config.maxProgramLen then
    { State.reset with mem := glyphMemory g, fault := some loadFault, driver := d }
  else
    { State.reset with mem := Memory.writeBytes (glyphMemory g) Config.programBase p, driver := d }

/-! ## Outputs (R281) -/

/-- `disp_out` (R276). -/
def State.dispOut (s : State) : Display := s.disp

/-- `redraw_out` (R276). -/
def State.redrawOut (s : State) : Bool := s.redrawPending

/-- `sound_out`: `ST != 0`, the only audio signal (R277). -/
def State.soundOut (s : State) : Bool := s.ST != 0

/-- `fault_out` (R281). -/
def State.faultOut (s : State) : Option FaultRecord := s.fault

/-! ## One move of the driver -/

/-- The machine's transition: the driver's next move is taken and made (20_memory.md R71). -/
def driverMove (s : State) : Result :=
  match s.nextMove with
  | .tick k => tick k s.takeMove
  | .reset g p => .next (resetWith g p s.takeMove.driver)

/-! ## Placing an instruction for the next step -/

/-- Whether a move is a reset. -/
def DriverMove.isReset : DriverMove → Bool
  | .tick _ => false
  | .reset _ _ => true

/-- A `pc` that can be fetched from: `pc` itself where it is even and below 4095 (40 R121), else 0x200. -/
def fetchablePC (pc : Word) : Word :=
  if pc.toNat % 2 = 0 ∧ pc.toNat + 1 < Config.memSize then pc else 0x200

/-- The state with the word `w` where the next step fetches, and everything in the way of that fetch removed: a latched
fault, a key wait, a bad `pc`, resets ahead of the next tick. At reset only memory changes. -/
def State.placeWord (s : State) (w : Word) : State :=
  { s with
    mem := Memory.writeBytes s.mem (fetchablePC s.pc).toNat (wordBytes w)
    pc := fetchablePC s.pc
    awaitingKey := false
    fault := none
    driver := { s.driver with moves := s.driver.moves.dropWhile DriverMove.isReset } }

end Sys2Proof.Machine
end

