-- ==== Sys2Proof/Machine/Step.lean ====
section
/-! DEFINITION. Machine/Step.lean: one step of the machine, and a state prepared to run a given word. Both only call
Machine/Ports.lean. -/

namespace Sys2Proof.Machine

/-- One step: one move of the driver, that is one tick, or a reset (49_tick_timer_input_wait.md R240,
70_reset_and_hazards.md R290). -/
def step (s : State) : Host.Outcome State Fault Refusal := driverMove s

/-- `s` with the instruction whose bits are `w` (numbered as opcode_table.json numbers them) where step fetches next. -/
def State.withFetchWord (s : State) (nbits w : Nat) : State := s.placeWord (tableWord nbits w)

end Sys2Proof.Machine
end

