-- ==== Sys2Proof/Machine/RunEnd.lean ====
section
/-! DEFINITION. Machine/RunEnd.lean: the model's own end of a run, which 70_reset_and_hazards.md R298 asks of it (decision
D29). Log 22. -/

namespace Sys2Proof.Machine

/-- How a run has ended. The driver that stops ticking is the third way of R298 and shows in no state. -/
inductive RunEnd where
  /-- The program is done: the machine sits on a jump to its own address. -/
  | done
  /-- A fault halts the core; never a successful end. -/
  | faulted (r : FaultRecord)
  deriving DecidableEq, Repr

/-- The next running tick jumps to the address it is at: the word at `pc` is `1nnn` with `nnn` = `pc`. Not so while a key
is awaited: the scan that ends the wait still writes a register (49_tick_timer_input_wait.md R244). -/
def State.idling (s : State) : Bool :=
  !s.awaitingKey &&
    match fetch s with
    | .ok w => w == encodeWord (.jp (s.pc.setWidth 12))
    | .error _ => false

/-- Whether, and how, a run that has come to this state has ended. -/
def State.runEnd (s : State) : Option RunEnd :=
  match s.fault with
  | some r => some (.faulted r)
  | none => if s.idling then some .done else none

/-- The machine's first `n` steps from `s`, stopping where a step does. -/
def runFor : Nat → State → Result
  | 0, s => .next s
  | n + 1, s =>
    match step s with
    | .next t => runFor n t
    | .fault f => .fault f
    | .refused f => .refused f

end Sys2Proof.Machine
end

