-- ==== Sys2Proof/Safety.lean ====
section
/-! DEFINITION. Safety.lean: what claims are stated with: no fault latched, a state that can fetch, what an instruction
may change (10_state.md R43), and the invariants of the machine. -/

namespace Sys2Proof.Machine

/-! ## Good and bad states -/

/-- No fault is latched: the premise or the proof duty of every claim about a program (60_exceptions.md R270). -/
def NoFault (s : State) : Prop := s.fault = none

/-- The invariant of R27: `pc` is even and at most 4094, so that a fetch succeeds (40 R121). -/
def PcValid (s : State) : Prop := s.pc.toNat % 2 = 0 ∧ s.pc.toNat ≤ 4094

/-- The next move ticks the machine with the snapshot `k`, and the tick will run an instruction: no fault is latched and
no key is awaited (49_tick_timer_input_wait.md R240). -/
def RunsWith (k : Keys) (s : State) : Prop :=
  s.nextMove = .tick k ∧ s.fault = none ∧ s.awaitingKey = false

/-- The big-endian word at `pc` (20_memory.md R62). -/
def wordAtPc (s : State) : Word :=
  Memory.read s.mem s.pc.toNat ++ Memory.read s.mem (s.pc.toNat + 1)

/-- The state the instruction of a `Running` tick starts from: the move taken, keys latched, redraw cleared. -/
def tickStart (k : Keys) (s : State) : State :=
  { s.takeMove with keys := k, redrawPending := false }

/-- The machine sits on a jump to its own address (70_reset_and_hazards.md R298): no fault, no key awaited, and the word at
a valid `pc` is 0x1000 + `pc`. The successful end of a run of `State.runEnd`, said with numbers. -/
def Idle (s : State) : Prop :=
  s.fault = none ∧ s.awaitingKey = false ∧ PcValid s ∧ (wordAtPc s).toNat = 0x1000 + s.pc.toNat

/-- The driver resets the machine in none of the moves it has fixed (with none fixed it ticks; log 1). -/
def OnlyTicks (s : State) : Prop := ∀ m ∈ s.driver.moves, m.isReset = false

/-- The run from `s` ends as `e` with its step `n`, and at none before it (R298; log 22). A run whose driver stops ticking
earlier, that waits for a key for ever, or that loops over more than one instruction, ends at no `n`. -/
def RunEnds (s : State) (n : Nat) (e : RunEnd) : Prop :=
  (∃ t : State, runFor n s = .next t ∧ t.runEnd = some e) ∧
    ∀ m < n, ∀ t : State, runFor m s = .next t → t.runEnd = none

/-! ## What an instruction may change (10_state.md R43) -/

/-- Components of the state an instruction may write. `pc` is not among them: every action may write it. -/
structure Footprint where
  reg : RegIdx → Prop := fun _ => False
  mem : Nat → Prop := fun _ => False
  I : Prop := False
  stack : Prop := False
  DT : Prop := False
  ST : Prop := False
  disp : Prop := False
  redraw : Prop := False
  wait : Prop := False
  draws : Prop := False

/-- From `s` to `t` nothing changed outside the footprint (and `pc`). Keys and the fault latch are in no footprint. -/
structure Unchanged (w : Footprint) (s t : State) : Prop where
  reg : ∀ r, ¬ w.reg r → t.reg r = s.reg r
  mem : ∀ a, ¬ w.mem a → Memory.read t.mem a = Memory.read s.mem a
  I : ¬ w.I → t.I = s.I
  stack : ¬ w.stack → t.stack = s.stack ∧ t.SP = s.SP
  DT : ¬ w.DT → t.DT = s.DT
  ST : ¬ w.ST → t.ST = s.ST
  disp : ¬ w.disp → t.disp = s.disp
  redraw : ¬ w.redraw → t.redrawPending = s.redrawPending
  wait : ¬ w.wait → t.awaitingKey = s.awaitingKey ∧ t.waitReg = s.waitReg
  draws : ¬ w.draws → t.driver = s.driver
  keys : t.keys = s.keys
  fault : t.fault = s.fault

/-- One register. -/
def onlyReg (x : RegIdx) : Footprint := { reg := fun r => r = x }

/-- One register and the flag. -/
def regAndFlag (x : RegIdx) : Footprint := { reg := fun r => r = x ∨ r = vf }

/-- `n` bytes of memory from `I`. -/
def bytesAtI (s : State) (n : Nat) : Footprint := { mem := fun a => dataBase s ≤ a ∧ a < dataBase s + n }

/-- The table of R43, by instruction: what it writes when it raises no fault. -/
def footprint (i : Instr) (s : State) : Footprint :=
  match i with
  | .cls _ => { disp := True, redraw := True }
  | .ret _ => { stack := True }
  | .jp _ => {}
  | .call _ => { stack := True }
  | .jpV0 _ => {}
  | .seImm _ _ => {}
  | .sneImm _ _ => {}
  | .seReg _ _ _ => {}
  | .sneReg _ _ _ => {}
  | .ldImm x _ => onlyReg x
  | .addImm x _ => onlyReg x
  | .ldReg x _ => onlyReg x
  | .orReg x _ => onlyReg x
  | .andReg x _ => onlyReg x
  | .xorReg x _ => onlyReg x
  | .addReg x _ => regAndFlag x
  | .subReg x _ => regAndFlag x
  | .shr x _ => regAndFlag x
  | .subn x _ => regAndFlag x
  | .shl x _ => regAndFlag x
  | .ldI _ => { I := True }
  | .addI _ => { reg := fun r => r = vf, I := True }
  | .rnd x _ => { reg := fun r => r = x, draws := True }
  | .drw _ _ _ => { reg := fun r => r = vf, disp := True, redraw := True }
  | .skp _ => {}
  | .sknp _ => {}
  | .ldVxDT x => onlyReg x
  | .ldVxK _ => { wait := True }
  | .ldDTVx _ => { DT := True }
  | .ldSTVx _ => { ST := True }
  | .ldF _ => { I := True }
  | .ldHF _ => { I := True }
  | .ldB _ => bytesAtI s 3
  | .stRegs x => bytesAtI s (regCount x)
  | .ldRegs x => { reg := fun r => r.toNat < regCount x }

/-- Which cause a fault of this instruction has (60_exceptions.md R271); none for the 27 that cannot fault. -/
def faultKind (i : Instr) : Option FaultCode :=
  match i with
  | .ret _ => some .stackUnderflow
  | .call _ => some .stackOverflow
  | .drw _ _ _ => some .addressOutOfRange
  | .ldB _ => some .addressOutOfRange
  | .stRegs _ => some .addressOutOfRange
  | .ldRegs _ => some .addressOutOfRange
  | .skp _ => some .keyIndexOutOfRange
  | .sknp _ => some .keyIndexOutOfRange
  | .cls _ => none
  | .jp _ => none
  | .jpV0 _ => none
  | .seImm _ _ => none
  | .sneImm _ _ => none
  | .seReg _ _ _ => none
  | .sneReg _ _ _ => none
  | .ldImm _ _ => none
  | .addImm _ _ => none
  | .ldReg _ _ => none
  | .orReg _ _ => none
  | .andReg _ _ => none
  | .xorReg _ _ => none
  | .addReg _ _ => none
  | .subReg _ _ => none
  | .shr _ _ => none
  | .subn _ _ => none
  | .shl _ _ => none
  | .ldI _ => none
  | .addI _ => none
  | .rnd _ _ => none
  | .ldVxDT _ => none
  | .ldVxK _ => none
  | .ldDTVx _ => none
  | .ldSTVx _ => none
  | .ldF _ => none
  | .ldHF _ => none

/-- The instruction draws on the display: clear-screen or sprite draw (10_state.md R33, R34). -/
def touchesDisplay (i : Instr) : Prop :=
  (∃ ign, i = .cls ign) ∨ ∃ x y n, i = .drw x y n

/-! ## Invariants -/

/-- Memory is in its canonical form and lists no address outside 0x000..0xFFF. -/
def MemCanonical (s : State) : Prop := Memory.wf s.mem

/-- `pc` and every return address held are values that R28 allows: `pc` never exceeds 0x10FE, a held return address is
even and at most 4096. -/
def ControlBounded (s : State) : Prop :=
  s.pc.toNat ≤ 0x10FE ∧
    ∀ k (h : k < 16), k < s.SP.val → (s.stack[k]).toNat ≤ 4096 ∧ (s.stack[k]).toNat % 2 = 0

end Sys2Proof.Machine
end

