-- ==== Sys2Proof/Certificates/Slice0/Obligations.lean ====
section
/-! DEFINITION. Certificates/Slice0/Obligations.lean: the statements for the provers, from the numbered rules of spec/.

A statement about one instruction says that `exec` ANSWERS A NEXT STATE, what that state holds, and its frame
(`Unchanged`, Safety.lean). Statements that rest on a decision of 92_eei_decisions.md or on a passage the spec marks
[derived] say so and name it. -/

open Sys2Proof Sys2Proof.Machine

/-! ## Encoding -/

/-- Words written out from the encodings of 30_encoding.md R98 (95_test_vectors.md E1 to E12) decode as the spec says.
The selector values are the spec's decision D1, the ignored bits D2 (log 9, log 7). -/
def Obligations.DecodesSpecWords : Prop :=
  decodeWord 0xD12A = some (.drw 1 2 10) ∧ decodeWord 0x6A42 = some (.ldImm 10 0x42) ∧
  decodeWord 0x1ABC = some (.jp 0xABC) ∧ decodeWord 0xBFFF = some (.jpV0 0xFFF) ∧
  decodeWord 0x8AB6 = some (.shr 10 11) ∧ decodeWord 0xF20A = some (.ldVxK 2) ∧
  decodeWord 0x5AB7 = some (.seReg 10 11 7) ∧ decodeWord 0x0FEE = some (.ret 15) ∧
  decodeWord 0x3A42 = some (.seImm 10 0x42) ∧ decodeWord 0xCA0F = some (.rnd 10 0x0F) ∧
  decodeWord 0xEA9E = some (.skp 10) ∧ decodeWord 0xA123 = some (.ldI 0x123) ∧
  decodeWord 0x0000 = none ∧ decodeWord 0x8AB8 = none ∧ decodeWord 0xEA9F = none ∧ decodeWord 0xF0FF = none

/-- Decoding an encoded instruction gives it back, every operand at every value, whatever bytes follow. The bytes are
in big-endian order (20_memory.md R62). Rests on the selector values of decision D1 (log 9). -/
def Obligations.DecodeOfEncodeIsIdentity : Prop :=
  ∀ (i : Instr) (rest : List Byte), decode (encode i ++ rest) = .ok (i, rest)

/-- The other direction: a word that decodes to an instruction is that instruction's word, ignored bits included. -/
def Obligations.EncodeOfDecodeIsIdentity : Prop :=
  ∀ (w : Word) (i : Instr), decodeWord w = some i → encodeWord i = w

/-- The opcode map of 30_encoding.md R98: a word decodes to an instruction of a row exactly when `w & mask = match` for
that row. Rests on decision D1 (log 9). -/
def Obligations.DecodeSelectsOpcodeMapRow : Prop :=
  ∀ (w : Word) (i : Instr), w &&& i.row.mask = i.row.bits ↔ ∃ j, decodeWord w = some j ∧ j.row = i.row

/-- Which words are unimplemented, and that a tick which fetches one latches the word and its address and changes nothing
else (beside the tick's own input latch and redraw clear). The set is that of the selector values of decision D1 (log 9)
with the ignored bits of D2 (log 7); the latch is D7 (log 5), and what stands on the faulting tick D28 (log 13). -/
def Obligations.UnimplementedWordsAreExactlyThese : Prop :=
  (∀ w : Word, decodeWord w = none ↔
    (w.toNat / 4096 = 0 ∧ w.toNat % 256 ∉ [0xE0, 0xEE]) ∨
    (w.toNat / 4096 = 8 ∧ w.toNat % 16 ∈ [8, 9, 10, 11, 12, 13, 15]) ∨
    (w.toNat / 4096 = 14 ∧ w.toNat % 256 ∉ [0x9E, 0xA1]) ∨
    (w.toNat / 4096 = 15 ∧ w.toNat % 256 ∉ [0x07, 0x0A, 0x15, 0x18, 0x1E, 0x29, 0x30, 0x33, 0x55, 0x65])) ∧
  ∀ (k : Keys) (s : State), RunsWith k s → PcValid s → decodeWord (wordAtPc s) = none →
    step s = .next { tickStart k s with
      fault := some { code := .unimplementedInstruction, opcode := wordAtPc s, address := s.pc, value := 0 } }

/-- R103 (decision D2): the well-formed instructions are those whose word passes the canonical mask of their row. -/
def Obligations.WellFormedIsCanonical : Prop :=
  ∀ i : Instr, i.wellFormed = true ↔ encodeWord i &&& i.row.canonicalMask = i.row.bits

/-- R96 (decision D2) and the shifts of R176, R178: bits the decoder ignores, and the `y` of a shift, change nothing. A
return that underflows is left out here: its record holds the word (R260). -/
def Obligations.IgnoredBitsHaveNoEffect : Prop :=
  ∀ s : State,
    (∀ a b, exec (.cls a) s = exec (.cls b) s) ∧
    (s.SP.val ≠ 0 → ∀ a b, exec (.ret a) s = exec (.ret b) s) ∧
    (∀ x y a b, exec (.seReg x y a) s = exec (.seReg x y b) s) ∧
    (∀ x y a b, exec (.sneReg x y a) s = exec (.sneReg x y b) s) ∧
    (∀ x y z, exec (.shr x y) s = exec (.shr x z) s) ∧
    (∀ x y z, exec (.shl x y) s = exec (.shl x z) s)

/-! ## The engine -/

/-- 40 R131 and 49 R240 ([derived], decision D17): when the bytes at a valid `pc` decode to an instruction, a running
tick is that instruction's `exec` on the state with keys latched and redraw cleared; then the timers count down, unless
the instruction raised a fault. -/
def Obligations.StepRunsDecodedInstruction : Prop :=
  ∀ (k : Keys) (i : Instr) (s t : State), RunsWith k s → PcValid s →
    decode [Memory.read s.mem s.pc.toNat, Memory.read s.mem (s.pc.toNat + 1)] = .ok (i, []) →
    exec i (tickStart k s) = .next t →
    step s = .next (if t.fault = none then { t with DT := timerDown t.DT, ST := timerDown t.ST } else t)

/-- 40 R121 (decisions D8, D26; log 12): the two faults of a fetch and their order; nothing but the latch changes. The form
of the record (opcode 0, value 0) is 60 R260, decision D7 (log 5); that the input latch and the redraw clear stand and no
timer is decremented is 49 R240, R248, decision D28 (log 13). -/
def Obligations.FetchFaultsInOrder : Prop :=
  ∀ (k : Keys) (s : State), RunsWith k s →
    (4096 ≤ s.pc.toNat → step s = .next { tickStart k s with
      fault := some { code := .addressOutOfRange, opcode := 0, address := s.pc, value := 0 } }) ∧
    (s.pc.toNat = 4095 → step s = .next { tickStart k s with
      fault := some { code := .addressOutOfRange, opcode := 0, address := 0x1000, value := 0 } }) ∧
    (s.pc.toNat < 4095 → s.pc.toNat % 2 = 1 → step s = .next { tickStart k s with
      fault := some { code := .misalignedPC, opcode := 0, address := s.pc, value := 0 } })

/-- 20 R73 ([derived]): a register store over the next instruction word is what the next fetch reads. -/
def Obligations.StoreIsSeenByNextFetch : Prop :=
  ∀ (x : RegIdx) (s t : State), s.pc.toNat % 2 = 0 → s.I.toNat = s.pc.toNat + 2 → 1 ≤ x.toNat →
    s.I.toNat + x.toNat < 4096 → exec (.stRegs x) s = .next t → fetch t = .ok (s.reg 0 ++ s.reg 1)

/-- 60 R269, R271 (decisions D9, D26): an instruction that raises a fault changes NOTHING but the latch, and the record
holds the instruction's own kind of cause and its opcode word. -/
def Obligations.FaultsArePreciseAndOfTheirKind : Prop :=
  ∀ (i : Instr) (s t : State), s.fault = none → exec i s = .next t → t.fault ≠ none →
    ∃ r : FaultRecord, t = { s with fault := some r } ∧ faultKind i = some r.code ∧ r.opcode = encodeWord i

/-- 10_state.md R43 ([derived]): an instruction that raises no fault changes only what the access table gives it, and
`pc`. The stored bytes are computed from `I` as the meaning computes them. -/
def Obligations.InstructionsChangeOnlyTheirFootprint : Prop :=
  ∀ (i : Instr) (s t : State), s.fault = none → exec i s = .next t → t.fault = none →
    Unchanged (footprint i s) s t

/-- Every instruction and every step answers a next state: no step of the machine stops. The model's reading of the
fatal conditions as a latch (R37, R249; decisions D7, D18; log 5). -/
def Obligations.EveryStepAnswersNext : Prop :=
  (∀ (i : Instr) (s : State), ∃ t, exec i s = .next t) ∧ ∀ s : State, ∃ t, step s = .next t

/-! ## Screen/control and jump/call -/

/-- R140: clear-screen, for every value of the ignored bits (decision D2, log 7). -/
def Obligations.ClearScreenBlanksDisplay : Prop :=
  ∀ (ign : Nibble) (s : State), ∃ t, exec (.cls ign) s = .next t ∧
    (∀ r c, Display.pixel t.disp r c = false) ∧ t.redrawPending = true ∧ t.pc = s.pc + 2 ∧
    Unchanged { disp := True, redraw := True } s t

/-- R141 (decisions D5, D6): a return pops the top address and jumps there; the slot keeps its value. -/
def Obligations.ReturnPopsAndJumps : Prop :=
  ∀ (ign : Nibble) (s : State) (k : Nat) (h : k < 16), s.SP.val = k + 1 → ∃ t, exec (.ret ign) s = .next t ∧
    t.SP.val = k ∧ t.pc = s.stack[k] ∧ t.stack = s.stack ∧ Unchanged { stack := True } s t

/-- R141, R263 (decision D6): a return on an empty stack. -/
def Obligations.ReturnOnEmptyStackFaults : Prop :=
  ∀ (ign : Nibble) (s : State), s.SP.val = 0 → exec (.ret ign) s =
    .next { s with fault := some { code := .stackUnderflow, opcode := encodeWord (.ret ign), address := s.pc, value := 0 } }

/-- R142: jump; everything but `pc` is the same. -/
def Obligations.JumpSetsPc : Prop :=
  ∀ (nnn : Addr12) (s : State), ∃ t, exec (.jp nnn) s = .next t ∧ t.pc.toNat = nnn.toNat ∧ t = { s with pc := t.pc }

/-- R143 (decisions D5, D6): a call pushes `pc + 2` and jumps; the other slots keep their values. -/
def Obligations.CallPushesReturnAddress : Prop :=
  ∀ (nnn : Addr12) (s : State) (k : Nat) (h : k < 16), s.SP.val = k → ∃ t, exec (.call nnn) s = .next t ∧
    t.SP.val = k + 1 ∧ t.stack[k] = s.pc + 2 ∧ (∀ j (hj : j < 16), j ≠ k → t.stack[j] = s.stack[j]) ∧
    t.pc.toNat = nnn.toNat ∧ Unchanged { stack := True } s t

/-- R143, R262 (decision D6): a call on a full stack. -/
def Obligations.CallOnFullStackFaults : Prop :=
  ∀ (nnn : Addr12) (s : State), s.SP.val = 16 → exec (.call nnn) s =
    .next { s with fault := some { code := .stackOverflow, opcode := encodeWord (.call nnn), address := s.pc, value := 0 } }

/-- R141's corner case (decision D5): the popped value is what the matching call pushed. -/
def Obligations.ReturnUndoesCall : Prop :=
  ∀ (nnn : Addr12) (ign : Nibble) (s t : State), s.SP.val < 16 → exec (.call nnn) s = .next t →
    ∃ u, exec (.ret ign) t = .next u ∧ u.pc = s.pc + 2 ∧ u.SP = s.SP ∧ Unchanged { stack := True } s u

/-- R144 (decision D10): the indexed jump, a sum that is not reduced to 12 bits. -/
def Obligations.IndexedJumpAddsV0 : Prop :=
  ∀ (nnn : Addr12) (s : State), ∃ t, exec (.jpV0 nnn) s = .next t ∧
    t.pc.toNat = nnn.toNat + (s.reg 0).toNat ∧ t = { s with pc := t.pc }

/-! ## Skip-compare -/

/-- R150 to R153: `pc` advances by 4 when the predicate holds and by 2 when it does not; nothing else changes. For every
value of the low nibble of the register forms, which is ignored by decision D2 (log 7). -/
def Obligations.SkipComparesAdvancePc : Prop :=
  ∀ s : State,
    (∀ x kk, exec (.seImm x kk) s = .next { s with pc := s.pc + if s.reg x = kk then 4 else 2 }) ∧
    (∀ x kk, exec (.sneImm x kk) s = .next { s with pc := s.pc + if s.reg x = kk then 2 else 4 }) ∧
    (∀ x y ign, exec (.seReg x y ign) s = .next { s with pc := s.pc + if s.reg x = s.reg y then 4 else 2 }) ∧
    (∀ x y ign, exec (.sneReg x y ign) s = .next { s with pc := s.pc + if s.reg x = s.reg y then 2 else 4 })

/-! ## Load and add immediate -/

/-- R160. -/
def Obligations.LoadImmediateSetsRegister : Prop :=
  ∀ (x : RegIdx) (kk : Byte) (s : State), ∃ t, exec (.ldImm x kk) s = .next t ∧
    t.reg x = kk ∧ t.pc = s.pc + 2 ∧ Unchanged (onlyReg x) s t

/-- R161: modulo 256, `VF` written only as the destination. -/
def Obligations.AddImmediateWrapsWithoutFlag : Prop :=
  ∀ (x : RegIdx) (kk : Byte) (s : State), ∃ t, exec (.addImm x kk) s = .next t ∧
    (t.reg x).toNat = ((s.reg x).toNat + kk.toNat) % 256 ∧ t.pc = s.pc + 2 ∧ Unchanged (onlyReg x) s t

/-! ## The register ALU family -/

/-- R170 to R173: move, OR, AND, XOR; no flag. -/
def Obligations.MoveAndLogicWriteOnlyVx : Prop :=
  ∀ (x y : RegIdx) (s : State),
    (∃ t, exec (.ldReg x y) s = .next t ∧ t.reg x = s.reg y ∧ t.pc = s.pc + 2 ∧ Unchanged (onlyReg x) s t) ∧
    (∃ t, exec (.orReg x y) s = .next t ∧ t.reg x = s.reg x ||| s.reg y ∧ t.pc = s.pc + 2 ∧
      Unchanged (onlyReg x) s t) ∧
    (∃ t, exec (.andReg x y) s = .next t ∧ t.reg x = s.reg x &&& s.reg y ∧ t.pc = s.pc + 2 ∧
      Unchanged (onlyReg x) s t) ∧
    (∃ t, exec (.xorReg x y) s = .next t ∧ t.reg x = s.reg x ^^^ s.reg y ∧ t.pc = s.pc + 2 ∧
      Unchanged (onlyReg x) s t)

/-- R174: the truncated sum of the OLD registers, the carry in `VF` unless `x` = 0xF, where the sum is written last. `VF`
written 0 without a carry is decision D3; old operands and the order of writes are R179, decision D4 (log 11). -/
def Obligations.AddSetsSumAndCarry : Prop :=
  ∀ (x y : RegIdx) (s : State), ∃ t, exec (.addReg x y) s = .next t ∧
    (t.reg x).toNat = ((s.reg x).toNat + (s.reg y).toNat) % 256 ∧
    (x ≠ vf → t.reg vf = if (s.reg x).toNat + (s.reg y).toNat > 255 then 1 else 0) ∧
    t.pc = s.pc + 2 ∧ Unchanged (regAndFlag x) s t

/-- R175, R177: difference modulo 256; `VF` is 1 exactly when the minuend is strictly greater (unless `x` = 0xF). The strict
comparison is an unaudited literal (U9, log 20); `VF` written 0 otherwise is decision D3, old operands and the order of
writes R179, decision D4 (log 11). -/
def Obligations.SubtractsSetDifferenceAndNoBorrow : Prop :=
  ∀ (x y : RegIdx) (s : State),
    (∃ t, exec (.subReg x y) s = .next t ∧
      (t.reg x).toNat = ((s.reg x).toNat + 256 - (s.reg y).toNat) % 256 ∧
      (x ≠ vf → t.reg vf = if (s.reg x).toNat > (s.reg y).toNat then 1 else 0) ∧
      t.pc = s.pc + 2 ∧ Unchanged (regAndFlag x) s t) ∧
    (∃ t, exec (.subn x y) s = .next t ∧
      (t.reg x).toNat = ((s.reg y).toNat + 256 - (s.reg x).toNat) % 256 ∧
      (x ≠ vf → t.reg vf = if (s.reg y).toNat > (s.reg x).toNat then 1 else 0) ∧
      t.pc = s.pc + 2 ∧ Unchanged (regAndFlag x) s t)

/-- R176, R178: shifts of `V[x]` by one, the bit shifted out in `VF` (unless `x` = 0xF), for every `y`. The flag written at
every execution is decision D3, the result surviving where `x` = 0xF R179, decision D4 (log 11); the ignored `y` is also
D2 (log 7). -/
def Obligations.ShiftsMoveOneBitIntoVF : Prop :=
  ∀ (x y : RegIdx) (s : State),
    (∃ t, exec (.shr x y) s = .next t ∧ (t.reg x).toNat = (s.reg x).toNat / 2 ∧
      (x ≠ vf → (t.reg vf).toNat = (s.reg x).toNat % 2) ∧ t.pc = s.pc + 2 ∧ Unchanged (regAndFlag x) s t) ∧
    (∃ t, exec (.shl x y) s = .next t ∧ (t.reg x).toNat = 2 * (s.reg x).toNat % 256 ∧
      (x ≠ vf → (t.reg vf).toNat = (s.reg x).toNat / 128) ∧ t.pc = s.pc + 2 ∧ Unchanged (regAndFlag x) s t)

/-! ## Indexed move and random -/

/-- R190. -/
def Obligations.LoadIndexZeroExtends : Prop :=
  ∀ (nnn : Addr12) (s : State), ∃ t, exec (.ldI nnn) s = .next t ∧
    t.I.toNat = nnn.toNat ∧ t.pc = s.pc + 2 ∧ Unchanged { I := True } s t

/-- R191 (decisions D3, D4, D10): the 16-bit sum with the OLD `V[x]`, and the flag on the new `I`. -/
def Obligations.AddToIndexSetsThresholdFlag : Prop :=
  ∀ (x : RegIdx) (s : State), ∃ t, exec (.addI x) s = .next t ∧
    t.I.toNat = (s.I.toNat + (s.reg x).toNat) % 65536 ∧ t.reg vf = (if t.I.toNat > 0x0F00 then 1 else 0) ∧
    t.pc = s.pc + 2 ∧ Unchanged { reg := fun r => r = vf, I := True } s t

/-- R192 (decision D20; log 2): `V[x]` is the next random byte masked with `kk`, for EVERY byte the driver may deliver;
where it has fixed none the byte is the free value; one draw is consumed. -/
def Obligations.RandomIsMaskedDraw : Prop :=
  ∀ (x : RegIdx) (kk : Byte) (s : State), ∃ t, exec (.rnd x kk) s = .next t ∧
    (∀ b rest, s.driver.draws = b :: rest → t.reg x = b &&& kk ∧
      t.driver = { s.driver with draws := rest, drawn := s.driver.drawn + 1 }) ∧
    (s.driver.draws = [] → t.reg x = Config.randomByte s.driver.drawn &&& kk ∧
      t.driver = { s.driver with drawn := s.driver.drawn + 1 }) ∧
    t.reg x &&& ~~~kk = 0 ∧ t.pc = s.pc + 2 ∧ Unchanged { reg := fun r => r = x, draws := True } s t

/-! ## Sprite draw -/

/-- R200 to R203: row `r`, column `c` of the sprite is XORed into the pixel at row (V[y]+r) mod 32, column (V[x]+c) mod 64,
most significant bit first; every other pixel is the same; `VF` is the OR of the erase-collisions. Coordinates and pixels
are those before the instruction (also where `x` or `y` is 0xF: decision D4, log 11); height 0 is decision D13 (log 17). -/
def Obligations.DrawXorsSpriteWithWrap : Prop :=
  ∀ (x y : RegIdx) (n : Nibble) (s : State), s.I.toNat + n.toNat ≤ 4096 → ∃ t, exec (.drw x y n) s = .next t ∧
    (∀ r c (row : Fin 32) (col : Fin 64), r < n.toNat → c < 8 →
      row.val = ((s.reg y).toNat + r) % 32 → col.val = ((s.reg x).toNat + c) % 64 →
      Display.pixel t.disp row col =
        (Display.pixel s.disp row col ^^ (Memory.read s.mem (s.I.toNat + r)).getLsbD (7 - c))) ∧
    (∀ (row : Fin 32) (col : Fin 64),
      (¬ ∃ r c, r < n.toNat ∧ c < 8 ∧ row.val = ((s.reg y).toNat + r) % 32 ∧ col.val = ((s.reg x).toNat + c) % 64) →
      Display.pixel t.disp row col = Display.pixel s.disp row col) ∧
    (t.reg vf = 0 ∨ t.reg vf = 1) ∧
    (t.reg vf = 1 ↔ ∃ (r c : Nat) (row : Fin 32) (col : Fin 64), r < n.toNat ∧ c < 8 ∧
      row.val = ((s.reg y).toNat + r) % 32 ∧ col.val = ((s.reg x).toNat + c) % 64 ∧
      Display.pixel s.disp row col = true ∧ (Memory.read s.mem (s.I.toNat + r)).getLsbD (7 - c) = true) ∧
    t.redrawPending = true ∧ t.pc = s.pc + 2 ∧
    Unchanged { reg := fun r => r = vf, disp := True, redraw := True } s t

/-- R205 (decision D13): height 0 draws nothing and checks no address, and still writes `VF` and sets the redraw flag. -/
def Obligations.DrawOfHeightZero : Prop :=
  ∀ (x y : RegIdx) (s : State), ∃ t, exec (.drw x y 0) s = .next t ∧ t.disp = s.disp ∧ t.reg vf = 0 ∧
    t.redrawPending = true ∧ t.pc = s.pc + 2 ∧ Unchanged { reg := fun r => r = vf, redraw := True } s t

/-- R207 ([derived]): drawing the same sprite twice restores every pixel, and the second draw collides when some
sprite bit fell on a pixel that was 0. Coordinates in registers other than `VF`, which the first draw writes. -/
def Obligations.DrawTwiceRestoresDisplay : Prop :=
  ∀ (x y : RegIdx) (n : Nibble) (s t : State), s.I.toNat + n.toNat ≤ 4096 → x ≠ vf → y ≠ vf →
    exec (.drw x y n) s = .next t → ∃ u, exec (.drw x y n) t = .next u ∧ u.disp = s.disp ∧
      ((∃ (r c : Nat) (row : Fin 32) (col : Fin 64), r < n.toNat ∧ c < 8 ∧
        row.val = ((s.reg y).toNat + r) % 32 ∧ col.val = ((s.reg x).toNat + c) % 64 ∧
        Display.pixel s.disp row col = false ∧ (Memory.read s.mem (s.I.toNat + r)).getLsbD (7 - c) = true) →
        u.reg vf = 1)

/-! ## Key skips -/

/-- R210, R211 (decision D12): the key tested is the one whose index `V[x]` holds. -/
def Obligations.KeySkipsTestKeyNamedByVx : Prop :=
  ∀ (x : RegIdx) (s : State) (h : (s.reg x).toNat < 16),
    exec (.skp x) s = .next { s with pc := s.pc + if s.keys[(s.reg x).toNat] = true then 4 else 2 } ∧
    exec (.sknp x) s = .next { s with pc := s.pc + if s.keys[(s.reg x).toNat] = true then 2 else 4 }

/-- R212, R266 (decision D12): an index of 16 or more is not masked; it is a fault that records the index. -/
def Obligations.KeySkipsFaultOnLargeIndex : Prop :=
  ∀ (x : RegIdx) (s : State), 16 ≤ (s.reg x).toNat →
    exec (.skp x) s = .next { s with
      fault := some { code := .keyIndexOutOfRange, opcode := encodeWord (.skp x), address := s.pc, value := s.reg x } } ∧
    exec (.sknp x) s = .next { s with
      fault := some { code := .keyIndexOutOfRange, opcode := encodeWord (.sknp x), address := s.pc, value := s.reg x } }

/-! ## The timer/misc family -/

/-- R220: the value read is `DT` before this tick's decrement. -/
def Obligations.ReadDelayTimer : Prop :=
  ∀ (x : RegIdx) (s : State), ∃ t, exec (.ldVxDT x) s = .next t ∧
    t.reg x = s.DT ∧ t.pc = s.pc + 2 ∧ Unchanged (onlyReg x) s t

/-- R222, R223: the timer takes `V[x]`; after the tick's count-down it stands at `max(V[x] - 1, 0)`, so a sound timer set
to 1 signals no tone. -/
def Obligations.SetTimersFromVx : Prop :=
  ∀ (x : RegIdx) (s : State),
    (∃ t, exec (.ldDTVx x) s = .next t ∧ t.DT = s.reg x ∧ t.pc = s.pc + 2 ∧
      t.countDown.DT.toNat = (s.reg x).toNat - 1 ∧ Unchanged { DT := True } s t) ∧
    (∃ t, exec (.ldSTVx x) s = .next t ∧ t.ST = s.reg x ∧ t.pc = s.pc + 2 ∧
      t.countDown.ST.toNat = (s.reg x).toNat - 1 ∧ (t.countDown.soundOut = true ↔ 1 < (s.reg x).toNat) ∧
      Unchanged { ST := True } s t)

/-- R221: the wait is entered with its target register; keys are not looked at and `V[x]` is not written; the next tick
scans and runs no instruction. -/
def Obligations.KeyWaitIsEntered : Prop :=
  ∀ (x : RegIdx) (s : State), ∃ t, exec (.ldVxK x) s = .next t ∧
    t.awaitingKey = true ∧ t.waitReg = x ∧ t.pc = s.pc + 2 ∧ Unchanged { wait := True } s t ∧
    ∀ k, t.fault = none → t.nextMove = .tick k → step t = .next (tickStart k t).scan

/-- R224, R225 (decision D11): products with the whole `V[x]`, no mask. -/
def Obligations.GlyphAddressesAreProducts : Prop :=
  ∀ (x : RegIdx) (s : State),
    (∃ t, exec (.ldF x) s = .next t ∧ t.I.toNat = (s.reg x).toNat * 5 ∧ t.pc = s.pc + 2 ∧
      Unchanged { I := True } s t) ∧
    (∃ t, exec (.ldHF x) s = .next t ∧ t.I.toNat = (s.reg x).toNat * 10 ∧ t.pc = s.pc + 2 ∧
      Unchanged { I := True } s t)

/-- R226 (decision D9): hundreds, tens, units at `I`, `I+1`, `I+2`. -/
def Obligations.DecimalStoreWritesThreeDigits : Prop :=
  ∀ (x : RegIdx) (s : State), s.I.toNat + 2 < 4096 → ∃ t, exec (.ldB x) s = .next t ∧
    (Memory.read t.mem s.I.toNat).toNat = (s.reg x).toNat / 100 ∧
    (Memory.read t.mem (s.I.toNat + 1)).toNat = (s.reg x).toNat / 10 % 10 ∧
    (Memory.read t.mem (s.I.toNat + 2)).toNat = (s.reg x).toNat % 10 ∧
    t.pc = s.pc + 2 ∧ Unchanged (bytesAtI s 3) s t

/-- R227, R229 (decisions D9, D14): `mem[I + i] = V[i]` for i = 0..x; `I` and the other bytes unchanged. -/
def Obligations.RegisterStoreWritesV0ToVx : Prop :=
  ∀ (x : RegIdx) (s : State), s.I.toNat + x.toNat < 4096 → ∃ t, exec (.stRegs x) s = .next t ∧
    (∀ r : RegIdx, r.toNat ≤ x.toNat → Memory.read t.mem (s.I.toNat + r.toNat) = s.reg r) ∧
    t.pc = s.pc + 2 ∧ Unchanged (bytesAtI s (x.toNat + 1)) s t

/-- R228, R229 (decisions D9, D14): `V[i] = mem[I + i]` for i = 0..x; `I` and the other registers unchanged. -/
def Obligations.RegisterLoadReadsV0ToVx : Prop :=
  ∀ (x : RegIdx) (s : State), s.I.toNat + x.toNat < 4096 → ∃ t, exec (.ldRegs x) s = .next t ∧
    (∀ r : RegIdx, r.toNat ≤ x.toNat → t.reg r = Memory.read s.mem (s.I.toNat + r.toNat)) ∧
    t.pc = s.pc + 2 ∧ Unchanged { reg := fun r => r.toNat ≤ x.toNat } s t

/-- 20 R64, R65, 60 R264 (decision D9): a sprite read, decimal store, register store or load with an address of 4096 or
more records the lowest such address and changes nothing else. -/
def Obligations.DataAccessFaultsOutOfRange : Prop :=
  ∀ (i : Instr) (n : Nat) (s : State),
    ((∃ x y k, i = .drw x y k ∧ n = k.toNat) ∨ (∃ x, i = .ldB x ∧ n = 3) ∨
      (∃ x, i = .stRegs x ∧ n = x.toNat + 1) ∨ (∃ x, i = .ldRegs x ∧ n = x.toNat + 1)) →
    n ≠ 0 → 4096 < s.I.toNat + n → exec i s = .next { s with
      fault := some
          { code := .addressOutOfRange, opcode := encodeWord i,
            address := if s.I.toNat < 4096 then 0x1000 else s.I, value := 0 } }

/-! ## The tick -/

/-- 49 R249, 60 R270 (decision D18): while a fault is latched a tick changes nothing of the machine; a reset leads out. -/
def Obligations.HaltedUntilReset : Prop :=
  ∀ s : State, s.fault ≠ none →
    (∀ k, s.nextMove = .tick k → step s = .next { s with driver := s.takeMove.driver }) ∧
    (∀ g p, s.nextMove = .reset g p → p.length ≤ 3584 →
      ∃ t, step s = .next t ∧ t.fault = none ∧ t.pc = 0x200 ∧ t.driver = s.takeMove.driver)

/-- R244, R245: a blocked tick runs no instruction and decrements no timer; the lowest pressed key's index goes to the
recorded register and ends the wait; with no key pressed only the keys and the redraw flag change. -/
def Obligations.KeyScanTakesLowestKey : Prop :=
  ∀ (k : Keys) (s : State), s.nextMove = .tick k → s.fault = none → s.awaitingKey = true →
    (∀ (j : Nat) (h : j < 16), k[j] = true → (∀ i (hi : i < j), k[i] = false) →
      ∃ t, step s = .next t ∧ (t.reg s.waitReg).toNat = j ∧ (∀ r, r ≠ s.waitReg → t.reg r = s.reg r) ∧
        t = { tickStart k s with V := t.V, awaitingKey := false }) ∧
    ((∀ i (hi : i < 16), k[i] = false) → step s = .next (tickStart k s))

/-- R246: a completed running tick takes each timer down by one, floored at 0, from what the instruction left; after n
such decrements a timer at v stands at v - n (0 when n reaches v). That the tick which executes `Fx0A` decrements too, and
the order of the tick, are R240, R247, decision D17 (log 18). -/
def Obligations.TimersCountDownAfterInstruction : Prop :=
  (∀ (k : Keys) (i : Instr) (s t : State), RunsWith k s → PcValid s → decodeWord (wordAtPc s) = some i →
    exec i (tickStart k s) = .next t → t.fault = none →
    ∃ u, step s = .next u ∧ u.DT.toNat = t.DT.toNat - 1 ∧ u.ST.toNat = t.ST.toNat - 1 ∧
      u = { t with DT := u.DT, ST := u.ST }) ∧
  ∀ (v : Byte) (n : Nat), (timerDown^[n] v).toNat = v.toNat - n

/-- 49 R248 (decisions D7, D28): a tick whose instruction faults keeps the input latch and the redraw clear, and changes
nothing else: no action, no timer decrement. -/
def Obligations.FaultingTickOnlyLatches : Prop :=
  ∀ (k : Keys) (s t : State), RunsWith k s → step s = .next t → t.fault ≠ none →
    t = { tickStart k s with fault := t.fault }

/-- R242, R241: after a tick the keys are the snapshot given to it, and the redraw flag is set exactly when the tick
completed a clear-screen or a sprite draw. That a draw which faults leaves the flag clear, and that the input latch and the
redraw clear stand on a faulting tick, are decisions D9 and D28 (log 13). -/
def Obligations.RedrawMeansDrawnThisTick : Prop :=
  ∀ (k : Keys) (s t : State), s.nextMove = .tick k → s.fault = none → step s = .next t →
    t.keys = k ∧ (t.redrawPending = true ↔ s.awaitingKey = false ∧ PcValid s ∧ t.fault = none ∧
      ∃ i, decodeWord (wordAtPc s) = some i ∧ touchesDisplay i)

/-- 10_state.md R33: no tick changes a pixel but one that runs clear-screen or the sprite draw. -/
def Obligations.OnlyDrawAndClearChangeDisplay : Prop :=
  ∀ (k : Keys) (s t : State), s.nextMove = .tick k → step s = .next t → t.disp ≠ s.disp →
    RunsWith k s ∧ PcValid s ∧ ∃ i, decodeWord (wordAtPc s) = some i ∧ touchesDisplay i

/-- R243: the input-wait machine has exactly two transitions: into the wait when `Fx0A` executes, recording its register,
and out of it when a scan finds a key. A latched fault freezes the state it was in: R249, decision D18 (log 18); a reset
enters `Running`: R41, decision D15 (log 6). -/
def Obligations.WaitHasExactlyTwoTransitions : Prop :=
  ∀ s t : State, step s = .next t →
    (∀ k, s.nextMove = .tick k →
      (s.awaitingKey = false → ∀ x,
        (t.awaitingKey = true ∧ t.waitReg = x ↔
          RunsWith k s ∧ PcValid s ∧ decodeWord (wordAtPc s) = some (.ldVxK x))) ∧
      (s.awaitingKey = true →
        (t.awaitingKey = false ↔ s.fault = none ∧ ∃ j, ∃ h : j < 16, k[j] = true)) ∧
      (s.fault ≠ none → t.awaitingKey = s.awaitingKey ∧ t.waitReg = s.waitReg)) ∧
    (∀ g p, s.nextMove = .reset g p → t.awaitingKey = false)

/-! ## Invariants -/

/-- Every step, a reset with any table and program among them, keeps memory canonical: in address order, no repeats, no
address outside 0x000..0xFFF (20 R60, R64). The canonical form is the model's own. -/
def Obligations.StepKeepsMemoryCanonical : Prop :=
  ∀ s t : State, MemCanonical s → step s = .next t → MemCanonical t

/-- That invariant holds after reset, for every glyph table and program. The canonical form is the model's own (log 3). -/
def Obligations.ResetMemoryIsCanonical : Prop :=
  MemCanonical State.reset ∧ ∀ g p d, MemCanonical (resetWith g p d)

/-- R28 ([derived]): `pc` never wraps and held return addresses are even and at most 4096, as an invariant of every
step. -/
def Obligations.StepKeepsControlBounded : Prop :=
  ∀ s t : State, ControlBounded s → step s = .next t → ControlBounded t

/-- That invariant holds after reset, for every glyph table and program. -/
def Obligations.ResetControlIsBounded : Prop :=
  ControlBounded State.reset ∧ ∀ g p d, ControlBounded (resetWith g p d)

/-! ## Reset -/

/-- R42: `pc` is the constant 0x200 after reset, and the first word fetched is the program's first two bytes. -/
def Obligations.ResetFetchesProgramStart : Prop :=
  State.reset.pc = 0x200 ∧
  ∀ (g : Vector Byte 80) (b0 b1 : Byte) (rest : List Byte) (d : Driver), (b0 :: b1 :: rest).length ≤ 3584 →
    (resetWith g (b0 :: b1 :: rest) d).pc = 0x200 ∧
    fetch (resetWith g (b0 :: b1 :: rest) d) = .ok (b0 ++ b1)

/-- 70 R290 to R292, 10_state.md R40, R41 (decisions D15, D16, D27): a reset move loads the glyph table at 0x000 and the
program at 0x200, zeroes every other byte and every other element; a program longer than 3584 bytes leaves the machine
halted with no byte of it copied. -/
def Obligations.ResetInitialisesEverything : Prop :=
  ∀ (s : State) (g : Vector Byte 80) (p : List Byte), s.nextMove = .reset g p → ∃ t, step s = .next t ∧
    (∀ a (h : a < 80), Memory.read t.mem a = g[a]) ∧
    (∀ a, 80 ≤ a → a < 0x200 → Memory.read t.mem a = 0) ∧
    (p.length ≤ 3584 → t.fault = none ∧ (∀ a (h : a < p.length), Memory.read t.mem (0x200 + a) = p[a]) ∧
      ∀ a, 0x200 + p.length ≤ a → Memory.read t.mem a = 0) ∧
    (3584 < p.length → t.fault = some { code := .loadOutOfRange, opcode := 0, address := 0x1000, value := 0 } ∧
      ∀ a, 0x200 ≤ a → Memory.read t.mem a = 0) ∧
    (∀ r, t.reg r = 0) ∧ t.I = 0 ∧ t.pc = 0x200 ∧ (∀ k (h : k < 16), t.stack[k] = 0) ∧ t.SP.val = 0 ∧
    t.DT = 0 ∧ t.ST = 0 ∧ (∀ r c, Display.pixel t.disp r c = false) ∧ t.redrawPending = false ∧
    (∀ k (h : k < 16), t.keys[k] = false) ∧ t.awaitingKey = false ∧ t.waitReg = 0 ∧
    t.driver = s.takeMove.driver

/-- The word placed by `withFetchWord` is the one the next step decodes and runs, from every state (log 4). -/
def Obligations.PlacedWordRunsNext : Prop :=
  ∀ (s : State) (w : Nat) (i : Instr), decodeTableWord 16 w = some i →
    ∃ k, RunsWith k (s.withFetchWord 16 w) ∧
      step (s.withFetchWord 16 w) = endTick (exec i (tickStart k (s.withFetchWord 16 w)))

/-! ## The end of a run -/

/-- 70 R298 (decision D29): the model's own end of a run (log 22) is a latched fault or, as the successful end, a jump to
its own address; a state is not both. -/
def Obligations.RunEndIsFaultOrSelfJump : Prop :=
  ∀ s : State, (s.runEnd = some .done ↔ Idle s) ∧ (∀ r, s.runEnd = some (.faulted r) ↔ s.fault = some r) ∧
    (s.runEnd = none ↔ s.fault = none ∧ ¬ Idle s)

/-- 70 R298 (decision D29): once a program is done a tick changes only the keys, the redraw flag (to 0) and the timers
(toward 0); and a run that has ended, done or by a fault, stays ended so for every later tick. The end is the model's own
(log 22); ticks after a fault are decision D18 (log 18). -/
def Obligations.EndedRunStaysEnded : Prop :=
  (∀ (k : Keys) (s : State), s.nextMove = .tick k → s.runEnd = some .done →
    step s = .next { tickStart k s with DT := timerDown s.DT, ST := timerDown s.ST }) ∧
  ∀ (s : State) (n : Nat) (e : RunEnd), OnlyTicks s → RunEnds s n e →
    ∀ m, n ≤ m → ∃ t : State, runFor m s = .next t ∧ t.runEnd = some e
end

