-- ==== Sys2Proof/Laws/Blit.lean ====
section
/-! SUPPORT. Laws/Blit.lean: everything the sprite blit can do (46_sprite_draw.md R200 to R203): no two of its positions
coincide, so each pixel is XORed with at most one sprite bit, and the flag is the OR of the collisions. -/

namespace Sys2Proof.Machine

theorem Display.pixel_setPixel (d : Display) (r r' : Fin 32) (c c' : Fin 64) (b : Bool) :
    Display.pixel (Display.setPixel d r c b) r' c' = if r' = r ∧ c' = c then b else Display.pixel d r' c' := by
  unfold Display.pixel Display.setPixel
  by_cases hr : r' = r
  · subst hr
    by_cases hc : c' = c
    · subst hc
      simp
    · have : c.val ≠ c'.val := fun e => hc (Fin.ext e.symm)
      simp [hc, this]
  · have : r.val ≠ r'.val := fun e => hr (Fin.ext e.symm)
    simp [hr, this]

/-- Displays with equal pixels are equal. -/
theorem Display.ext_pixel {d e : Display} (h : ∀ r c, Display.pixel d r c = Display.pixel e r c) : d = e := by
  apply Vector.ext; intro i hi
  apply Vector.ext; intro j hj
  exact h ⟨i, hi⟩ ⟨j, hj⟩

@[simp] theorem Display.pixel_blank (r : Fin 32) (c : Fin 64) : Display.pixel Display.blank r c = false := by
  simp [Display.pixel, Display.blank]

@[simp] theorem spriteRow_val (cy r : Nat) : (spriteRow cy r).val = (cy + r) % 32 := rfl

@[simp] theorem spriteCol_val (cx c : Nat) : (spriteCol cx c).val = (cx + c) % 64 := rfl

theorem spriteRow_inj {cy r r' : Nat} (h : r < 32) (h' : r' < 32) (e : spriteRow cy r = spriteRow cy r') : r = r' := by
  have := congrArg Fin.val e
  simp only [spriteRow_val] at this
  omega

theorem spriteCol_inj {cx c c' : Nat} (h : c < 64) (h' : c' < 64) (e : spriteCol cx c = spriteCol cx c') : c = c' := by
  have := congrArg Fin.val e
  simp only [spriteCol_val] at this
  omega

/-- The first `n` columns of a sprite row. -/
theorem blitCols_spec (cx : Nat) (r : Fin 32) (b : Byte) (p : Display × Bool) (n : Nat) (hn : n ≤ 64) :
    let q := (List.range n).foldl (fun p c => blitPixel r (spriteCol cx c) (spriteBit b c) p) p
    (∀ c, c < n → Display.pixel q.1 r (spriteCol cx c) =
      (Display.pixel p.1 r (spriteCol cx c) ^^ spriteBit b c)) ∧
    (∀ r' c', (r' ≠ r ∨ ∀ c, c < n → c' ≠ spriteCol cx c) → Display.pixel q.1 r' c' = Display.pixel p.1 r' c') ∧
    (q.2 = true ↔ p.2 = true ∨
      ∃ c, c < n ∧ Display.pixel p.1 r (spriteCol cx c) = true ∧ spriteBit b c = true) := by
  induction n with
  | zero => simp
  | succ n ih =>
    obtain ⟨hit, miss, flag⟩ := ih (by omega)
    simp only [List.range_succ, List.foldl_append, List.foldl_cons, List.foldl_nil]
    generalize hq : (List.range n).foldl (fun p c => blitPixel r (spriteCol cx c) (spriteBit b c) p) p = q at *
    have hne : ∀ c, c < n → spriteCol cx n ≠ spriteCol cx c := fun c hc e => by
      have := spriteCol_inj (by omega) (by omega) e
      omega
    have hold : Display.pixel q.1 r (spriteCol cx n) = Display.pixel p.1 r (spriteCol cx n) :=
      miss _ _ (.inr hne)
    refine ⟨fun c hc => ?_, fun r' c' h => ?_, ?_⟩
    · simp only [blitPixel, Display.pixel_setPixel]
      by_cases hcn : c = n
      · subst hcn
        simp [hold]
      · have hlt : c < n := by omega
        rw [if_neg (fun e => hne c hlt e.2.symm), hit c hlt]
    · simp only [blitPixel, Display.pixel_setPixel]
      have hn' : ¬ (r' = r ∧ c' = spriteCol cx n) := by
        rintro ⟨rfl, rfl⟩
        rcases h with h | h
        · exact h rfl
        · exact h n (by omega) rfl
      rw [if_neg hn']
      exact miss r' c' (h.imp id fun h c hc => h c (by omega))
    · simp only [blitPixel, Bool.or_eq_true, Bool.and_eq_true, flag, hold]
      constructor
      · rintro ((h | ⟨c, hc, h⟩) | h)
        · exact .inl h
        · exact .inr ⟨c, by omega, h⟩
        · exact .inr ⟨n, by omega, h⟩
      · rintro (h | ⟨c, hc, h⟩)
        · exact .inl (.inl h)
        · by_cases hcn : c = n
          · subst hcn
            exact .inr h
          · exact .inl (.inr ⟨c, by omega, h⟩)

/-- All rows from row `r0` on. -/
theorem blitRows_spec (cx cy : Nat) (bytes : List Byte) (r0 : Nat) (p : Display × Bool)
    (hn : r0 + bytes.length ≤ 32) :
    let q := blitRows cx cy r0 bytes p
    (∀ k c (hk : k < bytes.length), c < 8 → Display.pixel q.1 (spriteRow cy (r0 + k)) (spriteCol cx c) =
      (Display.pixel p.1 (spriteRow cy (r0 + k)) (spriteCol cx c) ^^ spriteBit bytes[k] c)) ∧
    (∀ r' c', (∀ k c, k < bytes.length → c < 8 → r' = spriteRow cy (r0 + k) → c' ≠ spriteCol cx c) →
      Display.pixel q.1 r' c' = Display.pixel p.1 r' c') ∧
    (q.2 = true ↔ p.2 = true ∨ ∃ k c, ∃ hk : k < bytes.length, c < 8 ∧
      Display.pixel p.1 (spriteRow cy (r0 + k)) (spriteCol cx c) = true ∧ spriteBit bytes[k] c = true) := by
  induction bytes generalizing r0 p with
  | nil => simp [blitRows]
  | cons b bs ih =>
    simp only [List.length_cons] at hn
    obtain ⟨hit0, miss0, flag0⟩ := blitCols_spec cx (spriteRow cy r0) b p 8 (by omega)
    obtain ⟨hit, miss, flag⟩ := ih (r0 + 1) (blitRow cx (spriteRow cy r0) b p) (by omega)
    have hrow : ∀ k, k < bs.length → spriteRow cy r0 ≠ spriteRow cy (r0 + 1 + k) := fun k hk e => by
      have := spriteRow_inj (by omega) (by omega) e
      omega
    have hsame : ∀ k c', k < bs.length →
        Display.pixel (blitRow cx (spriteRow cy r0) b p).1 (spriteRow cy (r0 + 1 + k)) c' =
          Display.pixel p.1 (spriteRow cy (r0 + 1 + k)) c' := fun k c' hk =>
      miss0 _ _ (.inl (hrow k hk).symm)
    simp only [blitRows]
    refine ⟨fun k c hk hc => ?_, fun r' c' h => ?_, ?_⟩
    · cases k with
      | zero =>
        refine Eq.trans (miss (spriteRow cy r0) _ fun k c hk hc e => absurd e (hrow k hk)) ?_
        exact hit0 c hc
      | succ k =>
        have hk' : k < bs.length := by simpa using hk
        have e : r0 + (k + 1) = r0 + 1 + k := by omega
        rw [e, hit k c hk' hc, hsame k _ hk']
        simp
    · rw [miss]
      · exact miss0 r' c' (by
          by_cases hr : r' = spriteRow cy r0
          · exact .inr fun c hc => h 0 c (by simp) hc (by simpa using hr)
          · exact .inl hr)
      · intro k c hk hc e
        exact h (k + 1) c (by simpa using hk) hc (by rw [e]; congr 1; omega)
    · rw [flag]
      constructor
      · rintro (h | ⟨k, c, hk, hc, h1, h2⟩)
        · rcases flag0.mp h with h | ⟨c, hc, h1, h2⟩
          · exact .inl h
          · exact .inr ⟨0, c, by simp, hc, h1, h2⟩
        · refine .inr ⟨k + 1, c, by simpa using hk, hc, ?_, by simpa using h2⟩
          rw [hsame k _ hk] at h1
          have e : r0 + (k + 1) = r0 + 1 + k := by omega
          rw [e]
          exact h1
      · rintro (h | ⟨k, c, hk, hc, h1, h2⟩)
        · exact .inl (flag0.mpr (.inl h))
        · cases k with
          | zero => exact .inl (flag0.mpr (.inr ⟨c, hc, h1, h2⟩))
          | succ k =>
            have hk' : k < bs.length := by simpa using hk
            have e : r0 + (k + 1) = r0 + 1 + k := by omega
            refine .inr ⟨k, c, hk', hc, ?_, by simpa using h2⟩
            rw [hsame k _ hk', ← e]
            exact h1

/-- The whole blit of a sprite of at most 32 rows. -/
theorem blit_spec (cx cy : Nat) (bytes : List Byte) (d : Display) (hn : bytes.length ≤ 32) :
    (∀ k c (hk : k < bytes.length), c < 8 → Display.pixel (blit cx cy bytes d).1 (spriteRow cy k) (spriteCol cx c) =
      (Display.pixel d (spriteRow cy k) (spriteCol cx c) ^^ spriteBit bytes[k] c)) ∧
    (∀ r' c', (∀ k c, k < bytes.length → c < 8 → r' = spriteRow cy k → c' ≠ spriteCol cx c) →
      Display.pixel (blit cx cy bytes d).1 r' c' = Display.pixel d r' c') ∧
    ((blit cx cy bytes d).2 = true ↔ ∃ k c, ∃ hk : k < bytes.length, c < 8 ∧
      Display.pixel d (spriteRow cy k) (spriteCol cx c) = true ∧ spriteBit bytes[k] c = true) := by
  have h := blitRows_spec cx cy bytes 0 (d, false) (by simpa using hn)
  simpa [blit] using h

end Sys2Proof.Machine
end

