-- ==== Sys2Proof/Laws/Decode.lean ====
section
/-! SUPPORT. Laws/Decode.lean: the fields of an encoded word, and the decoder by families. -/

namespace Sys2Proof

/-! ## Fields of the formats (30_encoding.md R91, R92) -/

@[simp] theorem familyOf_formatA (f : Nibble) (a : Addr12) : familyOf (formatA f a) = f := by
  apply BitVec.eq_of_getLsbD_eq; intro i hi
  simp only [familyOf, formatA, BitVec.getLsbD_append, BitVec.getLsbD_extractLsb']
  simp [hi]

@[simp] theorem nnnOf_formatA (f : Nibble) (a : Addr12) : nnnOf (formatA f a) = a := by
  apply BitVec.eq_of_getLsbD_eq; intro i hi
  simp only [nnnOf, formatA, BitVec.getLsbD_append, BitVec.getLsbD_extractLsb']
  simp [hi]

@[simp] theorem familyOf_formatI (f : Nibble) (x : RegIdx) (k : Byte) : familyOf (formatI f x k) = f := by
  apply BitVec.eq_of_getLsbD_eq; intro i hi
  simp only [familyOf, formatI, BitVec.getLsbD_append, BitVec.getLsbD_extractLsb']
  simp [hi]

@[simp] theorem xOf_formatI (f : Nibble) (x : RegIdx) (k : Byte) : xOf (formatI f x k) = x := by
  apply BitVec.eq_of_getLsbD_eq; intro i hi
  have h1 : 8 + i < 12 := by omega
  simp only [xOf, formatI, BitVec.getLsbD_append, BitVec.getLsbD_extractLsb']
  simp [hi, h1]

@[simp] theorem kkOf_formatI (f : Nibble) (x : RegIdx) (k : Byte) : kkOf (formatI f x k) = k := by
  apply BitVec.eq_of_getLsbD_eq; intro i hi
  have h1 : i < 12 := by omega
  simp only [kkOf, formatI, BitVec.getLsbD_append, BitVec.getLsbD_extractLsb']
  simp [hi, h1]

@[simp] theorem familyOf_formatR (f : Nibble) (x y : RegIdx) (n : Nibble) : familyOf (formatR f x y n) = f := by
  apply BitVec.eq_of_getLsbD_eq; intro i hi
  simp only [familyOf, formatR, BitVec.getLsbD_append, BitVec.getLsbD_extractLsb']
  simp [hi]

@[simp] theorem xOf_formatR (f : Nibble) (x y : RegIdx) (n : Nibble) : xOf (formatR f x y n) = x := by
  apply BitVec.eq_of_getLsbD_eq; intro i hi
  have h1 : 8 + i < 12 := by omega
  simp only [xOf, formatR, BitVec.getLsbD_append, BitVec.getLsbD_extractLsb']
  simp [hi, h1]

@[simp] theorem yOf_formatR (f : Nibble) (x y : RegIdx) (n : Nibble) : yOf (formatR f x y n) = y := by
  apply BitVec.eq_of_getLsbD_eq; intro i hi
  have h1 : 4 + i < 12 := by omega
  have h2 : 4 + i < 8 := by omega
  simp only [yOf, formatR, BitVec.getLsbD_append, BitVec.getLsbD_extractLsb']
  simp [hi, h1, h2]

@[simp] theorem nOf_formatR (f : Nibble) (x y : RegIdx) (n : Nibble) : nOf (formatR f x y n) = n := by
  apply BitVec.eq_of_getLsbD_eq; intro i hi
  have h1 : i < 12 := by omega
  have h2 : i < 8 := by omega
  simp only [nOf, formatR, BitVec.getLsbD_append, BitVec.getLsbD_extractLsb']
  simp [hi, h1, h2]

/-! ## A word is its fields -/

theorem formatA_fields (w : Word) : formatA (familyOf w) (nnnOf w) = w := by
  apply BitVec.eq_of_getLsbD_eq; intro i hi
  simp only [formatA, familyOf, nnnOf, BitVec.getLsbD_append, BitVec.getLsbD_extractLsb']
  by_cases h : i < 12
  · simp [h]
  · have h1 : i - 12 < 4 := by omega
    have h2 : 12 + (i - 12) = i := by omega
    simp [h, h1, h2]

theorem formatI_fields (w : Word) : formatI (familyOf w) (xOf w) (kkOf w) = w := by
  apply BitVec.eq_of_getLsbD_eq; intro i hi
  simp only [formatI, familyOf, xOf, kkOf, BitVec.getLsbD_append, BitVec.getLsbD_extractLsb']
  by_cases h : i < 8
  · have h0 : i < 12 := by omega
    simp [h, h0]
  · by_cases h3 : i < 12
    · have h1 : i - 8 < 4 := by omega
      have h2 : 8 + (i - 8) = i := by omega
      simp [h, h3, h1, h2]
    · have h1 : i - 12 < 4 := by omega
      have h2 : 12 + (i - 12) = i := by omega
      simp [h3, h1, h2]

theorem formatR_fields (w : Word) : formatR (familyOf w) (xOf w) (yOf w) (nOf w) = w := by
  apply BitVec.eq_of_getLsbD_eq; intro i hi
  simp only [formatR, familyOf, xOf, yOf, nOf, BitVec.getLsbD_append, BitVec.getLsbD_extractLsb']
  by_cases h : i < 4
  · have h0 : i < 12 := by omega
    have h1 : i < 8 := by omega
    simp [h, h0, h1]
  · by_cases h3 : i < 8
    · have h0 : i < 12 := by omega
      have h1 : i - 4 < 4 := by omega
      have h2 : 4 + (i - 4) = i := by omega
      simp [h, h3, h0, h1, h2]
    · by_cases h4 : i < 12
      · have h1 : i - 8 < 4 := by omega
        have h2 : 8 + (i - 8) = i := by omega
        simp [h3, h4, h1, h2]
      · have h1 : i - 12 < 4 := by omega
        have h2 : 12 + (i - 12) = i := by omega
        simp [h4, h1, h2]

theorem wordOf_hiByte_loByte (w : Word) : wordOf (hiByte w) (loByte w) = w := by
  apply BitVec.eq_of_getLsbD_eq; intro i hi
  simp only [wordOf, hiByte, loByte, BitVec.getLsbD_append, BitVec.getLsbD_extractLsb']
  by_cases h : i < 8
  · simp [h]
  · have h1 : i - 8 < 8 := by omega
    have h2 : 8 + (i - 8) = i := by omega
    simp [h, h1, h2]

/-! ## Fields as numbers -/

theorem familyOf_toNat (w : Word) : (familyOf w).toNat = w.toNat / 4096 := by
  have := w.isLt
  simp only [familyOf, BitVec.extractLsb'_toNat, Nat.shiftRight_eq_div_pow]
  omega

theorem kkOf_toNat (w : Word) : (kkOf w).toNat = w.toNat % 256 := by
  simp [kkOf, BitVec.extractLsb'_toNat]

theorem nOf_toNat (w : Word) : (nOf w).toNat = w.toNat % 16 := by
  simp [nOf, BitVec.extractLsb'_toNat]

/-! ## Decoding bytes -/

theorem decode_wordBytes (w : Word) (rest : List Byte) :
    decode (wordBytes w ++ rest) =
      match decodeWord w with
      | some i => .ok (i, rest)
      | none => .error (.unimplemented w) := by
  cases h : decodeWord w <;> simp [decode, wordBytes, wordOf_hiByte_loByte, h]

theorem decodeTableWord_eq (nbits w : Nat) : decodeTableWord nbits w = decodeWord (tableWord nbits w) := by
  have := decode_wordBytes (tableWord nbits w) []
  simp only [List.append_nil] at this
  rw [decodeTableWord, this]
  cases decodeWord (tableWord nbits w) <;> rfl

end Sys2Proof
end

