-- ==== Sys2Proof/Laws/Memory.lean ====
section
/-! SUPPORT. Laws/Memory.lean: what reading and writing memory can do, and that every memory operation keeps the canonical
form. -/

namespace Sys2Proof.Machine.Memory

@[simp] theorem read_nil (a : Nat) : read [] a = unlisted a := rfl

theorem unlisted_eq_zero {a : Nat} (h : 80 ≤ a) : unlisted a = 0 := by
  simp [unlisted, Nat.not_lt.mpr h]

theorem read_insert (m : Memory) (a b : Nat) (v : Byte) :
    read (insert m a v) b = if b = a then v else read m b := by
  induction m with
  | nil => simp [insert, read]
  | cons c rest ih =>
    obtain ⟨k, w⟩ := c
    unfold insert
    by_cases h1 : a < k
    · simp [h1, read]
    · by_cases h2 : a = k
      · subst h2
        by_cases hb : b = a <;> simp [read, hb]
      · simp only [h1, h2, if_false, read, ih]
        by_cases hb : b = k
        · have hne : b ≠ a := fun e => h2 (e ▸ hb)
          simp only [hb, if_true]
          rw [if_neg (fun e => h2 e.symm)]
        · simp [hb]

theorem read_erase (m : Memory) (a b : Nat) :
    read (erase m a) b = if b = a then unlisted a else read m b := by
  induction m with
  | nil => by_cases h : b = a <;> simp [erase, read, h]
  | cons c rest ih =>
    obtain ⟨k, w⟩ := c
    unfold erase
    by_cases h2 : a = k
    · subst h2
      rw [if_pos rfl, ih]
      by_cases hb : b = a <;> simp [read, hb]
    · simp only [h2, if_false, read, ih]
      by_cases hb : b = k
      · have : k ≠ a := fun e => h2 e.symm
        simp [hb, this]
      · simp [hb]

/-- Read after write (20_memory.md R68), on any memory. -/
theorem read_write (m : Memory) (a b : Nat) (v : Byte) :
    read (write m a v) b = if b = a then v else read m b := by
  unfold write
  split
  · rename_i hv
    rw [read_erase, hv]
  · exact read_insert m a b v

theorem mem_insert {m : Memory} {a : Nat} {v : Byte} {c : Host.Cell} (h : c ∈ insert m a v) :
    c = (a, v) ∨ c ∈ m := by
  induction m with
  | nil => exact .inl (by simpa [insert] using h)
  | cons d rest ih =>
    obtain ⟨k, w⟩ := d
    unfold insert at h
    by_cases h1 : a < k
    · simpa [h1] using h
    · by_cases h2 : a = k
      · simp only [h2, lt_irrefl, if_false, if_true, List.mem_cons] at h
        rcases h with h | h
        · exact .inl (by rw [h, h2])
        · exact .inr (by simp [h])
      · simp only [h1, h2, if_false, List.mem_cons] at h
        rcases h with h | h
        · exact .inr (by simp [h])
        · rcases ih h with h | h
          · exact .inl h
          · exact .inr (by simp [h])

theorem mem_erase {m : Memory} {a : Nat} {c : Host.Cell} (h : c ∈ erase m a) : c ∈ m := by
  induction m with
  | nil => exact h
  | cons d rest ih =>
    obtain ⟨k, w⟩ := d
    unfold erase at h
    by_cases h2 : a = k
    · simp only [h2, if_true] at h
      exact List.mem_cons_of_mem _ (ih (h2 ▸ h))
    · simp only [h2, if_false, List.mem_cons] at h
      rcases h with h | h
      · simp [h]
      · simp [ih h]

theorem insert_sorted {m : Memory} (hs : m.Pairwise (fun c d => c.1 < d.1)) (a : Nat) (v : Byte) :
    (insert m a v).Pairwise (fun c d => c.1 < d.1) := by
  induction m with
  | nil => simp [insert]
  | cons d rest ih =>
    obtain ⟨k, w⟩ := d
    have hs' := List.pairwise_cons.mp hs
    unfold insert
    by_cases h1 : a < k
    · simp only [h1, if_true]
      refine List.pairwise_cons.mpr ⟨fun c hc => ?_, hs⟩
      rcases List.mem_cons.mp hc with rfl | hc
      · exact h1
      · exact lt_trans h1 (hs'.1 c hc)
    · by_cases h2 : a = k
      · subst h2
        simp only [lt_irrefl, if_false, if_true]
        exact List.pairwise_cons.mpr ⟨hs'.1, hs'.2⟩
      · simp only [h1, h2, if_false]
        refine List.pairwise_cons.mpr ⟨fun c hc => ?_, ih hs'.2⟩
        rcases mem_insert hc with rfl | hc
        · show k < a
          omega
        · exact hs'.1 c hc

theorem erase_sorted {m : Memory} (hs : m.Pairwise (fun c d => c.1 < d.1)) (a : Nat) :
    (erase m a).Pairwise (fun c d => c.1 < d.1) := by
  induction m with
  | nil => exact hs
  | cons d rest ih =>
    obtain ⟨k, w⟩ := d
    have hs' := List.pairwise_cons.mp hs
    unfold erase
    by_cases h2 : a = k
    · simpa [h2] using ih hs'.2
    · simp only [h2, if_false]
      exact List.pairwise_cons.mpr ⟨fun c hc => hs'.1 c (mem_erase hc), ih hs'.2⟩

/-- A write inside memory keeps the canonical form. -/
theorem write_wf {m : Memory} (h : wf m) {a : Nat} (ha : a < 4096) (v : Byte) : wf (write m a v) := by
  unfold write
  split
  · exact ⟨erase_sorted h.1 a, fun c hc => h.2 c (mem_erase hc)⟩
  · rename_i hv
    refine ⟨insert_sorted h.1 a v, fun c hc => ?_⟩
    rcases mem_insert hc with rfl | hc
    · exact ⟨ha, hv⟩
    · exact h.2 c hc

/-- Writing bytes inside memory keeps the canonical form. -/
theorem writeBytes_wf {m : Memory} (h : wf m) {a : Nat} {vs : List Byte} (ha : a + vs.length ≤ 4096) :
    wf (writeBytes m a vs) := by
  induction vs generalizing m a with
  | nil => exact h
  | cons v vs ih =>
    simp only [List.length_cons] at ha
    exact ih (write_wf h (by omega) v) (by omega)

/-- What every address reads as after bytes are written. -/
theorem read_writeBytes (m : Memory) (a : Nat) (vs : List Byte) (b : Nat) :
    read (writeBytes m a vs) b =
      if hb : a ≤ b ∧ b < a + vs.length then vs[b - a]'(by omega) else read m b := by
  induction vs generalizing m a with
  | nil =>
    rw [dif_neg (by simp)]
    rfl
  | cons v vs ih =>
    rw [writeBytes, ih, read_write]
    by_cases h1 : b = a
    · subst h1
      simp
    · by_cases h2 : a + 1 ≤ b ∧ b < a + 1 + vs.length
      · have h3 : a ≤ b ∧ b < a + (v :: vs).length := by
          simp only [List.length_cons]; omega
        rw [dif_pos h2, dif_pos h3]
        have h4 : b - a = (b - (a + 1)) + 1 := by omega
        simp [h4]
      · have h3 : ¬ (a ≤ b ∧ b < a + (v :: vs).length) := by
          simp only [List.length_cons]; omega
        rw [dif_neg h2, dif_neg h3, if_neg h1]

/-- Outside the bytes written, memory reads as before. -/
theorem read_writeBytes_of_outside {m : Memory} {a b : Nat} {vs : List Byte}
    (hb : b < a ∨ a + vs.length ≤ b) : read (writeBytes m a vs) b = read m b := by
  rw [read_writeBytes, dif_neg (by omega)]

@[simp] theorem length_readBytes (m : Memory) (a n : Nat) : (readBytes m a n).length = n := by
  simp [readBytes]

@[simp] theorem getElem_readBytes (m : Memory) (a n k : Nat) (h : k < (readBytes m a n).length) :
    (readBytes m a n)[k] = read m (a + k) := by
  simp [readBytes]

theorem nil_wf : wf [] := ⟨List.Pairwise.nil, by simp⟩

end Sys2Proof.Machine.Memory
end

