-- ==== Sys2Proof/Laws/State.lean ====
section
/-! SUPPORT. Laws/State.lean: one lemma per field per named update of the state, each true by rfl, and the laws of reading
and writing registers. -/

namespace Sys2Proof.Machine

/-! ## setReg -/

@[simp] theorem State.setReg_mem (s : State) (x : RegIdx) (v : Byte) : (s.setReg x v).mem = s.mem := rfl
@[simp] theorem State.setReg_V (s : State) (x : RegIdx) (v : Byte) : (s.setReg x v).V = s.V.set x.toNat v x.isLt := rfl
@[simp] theorem State.setReg_I (s : State) (x : RegIdx) (v : Byte) : (s.setReg x v).I = s.I := rfl
@[simp] theorem State.setReg_pc (s : State) (x : RegIdx) (v : Byte) : (s.setReg x v).pc = s.pc := rfl
@[simp] theorem State.setReg_stack (s : State) (x : RegIdx) (v : Byte) : (s.setReg x v).stack = s.stack := rfl
@[simp] theorem State.setReg_SP (s : State) (x : RegIdx) (v : Byte) : (s.setReg x v).SP = s.SP := rfl
@[simp] theorem State.setReg_DT (s : State) (x : RegIdx) (v : Byte) : (s.setReg x v).DT = s.DT := rfl
@[simp] theorem State.setReg_ST (s : State) (x : RegIdx) (v : Byte) : (s.setReg x v).ST = s.ST := rfl
@[simp] theorem State.setReg_disp (s : State) (x : RegIdx) (v : Byte) : (s.setReg x v).disp = s.disp := rfl
@[simp] theorem State.setReg_redrawPending (s : State) (x : RegIdx) (v : Byte) : (s.setReg x v).redrawPending = s.redrawPending := rfl
@[simp] theorem State.setReg_keys (s : State) (x : RegIdx) (v : Byte) : (s.setReg x v).keys = s.keys := rfl
@[simp] theorem State.setReg_awaitingKey (s : State) (x : RegIdx) (v : Byte) : (s.setReg x v).awaitingKey = s.awaitingKey := rfl
@[simp] theorem State.setReg_waitReg (s : State) (x : RegIdx) (v : Byte) : (s.setReg x v).waitReg = s.waitReg := rfl
@[simp] theorem State.setReg_fault (s : State) (x : RegIdx) (v : Byte) : (s.setReg x v).fault = s.fault := rfl
@[simp] theorem State.setReg_driver (s : State) (x : RegIdx) (v : Byte) : (s.setReg x v).driver = s.driver := rfl

/-! ## takeMove -/

@[simp] theorem State.takeMove_mem (s : State) : s.takeMove.mem = s.mem := rfl
@[simp] theorem State.takeMove_V (s : State) : s.takeMove.V = s.V := rfl
@[simp] theorem State.takeMove_I (s : State) : s.takeMove.I = s.I := rfl
@[simp] theorem State.takeMove_pc (s : State) : s.takeMove.pc = s.pc := rfl
@[simp] theorem State.takeMove_stack (s : State) : s.takeMove.stack = s.stack := rfl
@[simp] theorem State.takeMove_SP (s : State) : s.takeMove.SP = s.SP := rfl
@[simp] theorem State.takeMove_DT (s : State) : s.takeMove.DT = s.DT := rfl
@[simp] theorem State.takeMove_ST (s : State) : s.takeMove.ST = s.ST := rfl
@[simp] theorem State.takeMove_disp (s : State) : s.takeMove.disp = s.disp := rfl
@[simp] theorem State.takeMove_redrawPending (s : State) : s.takeMove.redrawPending = s.redrawPending := rfl
@[simp] theorem State.takeMove_keys (s : State) : s.takeMove.keys = s.keys := rfl
@[simp] theorem State.takeMove_awaitingKey (s : State) : s.takeMove.awaitingKey = s.awaitingKey := rfl
@[simp] theorem State.takeMove_waitReg (s : State) : s.takeMove.waitReg = s.waitReg := rfl
@[simp] theorem State.takeMove_fault (s : State) : s.takeMove.fault = s.fault := rfl
@[simp] theorem State.takeMove_driver (s : State) : s.takeMove.driver = { s.driver with moves := s.driver.moves.tail, ticks := s.driver.ticks + 1 } := rfl

/-! ## takeDraw -/

@[simp] theorem State.takeDraw_mem (s : State) : s.takeDraw.mem = s.mem := rfl
@[simp] theorem State.takeDraw_V (s : State) : s.takeDraw.V = s.V := rfl
@[simp] theorem State.takeDraw_I (s : State) : s.takeDraw.I = s.I := rfl
@[simp] theorem State.takeDraw_pc (s : State) : s.takeDraw.pc = s.pc := rfl
@[simp] theorem State.takeDraw_stack (s : State) : s.takeDraw.stack = s.stack := rfl
@[simp] theorem State.takeDraw_SP (s : State) : s.takeDraw.SP = s.SP := rfl
@[simp] theorem State.takeDraw_DT (s : State) : s.takeDraw.DT = s.DT := rfl
@[simp] theorem State.takeDraw_ST (s : State) : s.takeDraw.ST = s.ST := rfl
@[simp] theorem State.takeDraw_disp (s : State) : s.takeDraw.disp = s.disp := rfl
@[simp] theorem State.takeDraw_redrawPending (s : State) : s.takeDraw.redrawPending = s.redrawPending := rfl
@[simp] theorem State.takeDraw_keys (s : State) : s.takeDraw.keys = s.keys := rfl
@[simp] theorem State.takeDraw_awaitingKey (s : State) : s.takeDraw.awaitingKey = s.awaitingKey := rfl
@[simp] theorem State.takeDraw_waitReg (s : State) : s.takeDraw.waitReg = s.waitReg := rfl
@[simp] theorem State.takeDraw_fault (s : State) : s.takeDraw.fault = s.fault := rfl
@[simp] theorem State.takeDraw_driver (s : State) : s.takeDraw.driver = { s.driver with draws := s.driver.draws.tail, drawn := s.driver.drawn + 1 } := rfl

/-! ## beginTick -/

@[simp] theorem State.beginTick_mem (k : Keys) (s : State) : (s.beginTick k).mem = s.mem := rfl
@[simp] theorem State.beginTick_V (k : Keys) (s : State) : (s.beginTick k).V = s.V := rfl
@[simp] theorem State.beginTick_I (k : Keys) (s : State) : (s.beginTick k).I = s.I := rfl
@[simp] theorem State.beginTick_pc (k : Keys) (s : State) : (s.beginTick k).pc = s.pc := rfl
@[simp] theorem State.beginTick_stack (k : Keys) (s : State) : (s.beginTick k).stack = s.stack := rfl
@[simp] theorem State.beginTick_SP (k : Keys) (s : State) : (s.beginTick k).SP = s.SP := rfl
@[simp] theorem State.beginTick_DT (k : Keys) (s : State) : (s.beginTick k).DT = s.DT := rfl
@[simp] theorem State.beginTick_ST (k : Keys) (s : State) : (s.beginTick k).ST = s.ST := rfl
@[simp] theorem State.beginTick_disp (k : Keys) (s : State) : (s.beginTick k).disp = s.disp := rfl
@[simp] theorem State.beginTick_redrawPending (k : Keys) (s : State) : (s.beginTick k).redrawPending = false := rfl
@[simp] theorem State.beginTick_keys (k : Keys) (s : State) : (s.beginTick k).keys = k := rfl
@[simp] theorem State.beginTick_awaitingKey (k : Keys) (s : State) : (s.beginTick k).awaitingKey = s.awaitingKey := rfl
@[simp] theorem State.beginTick_waitReg (k : Keys) (s : State) : (s.beginTick k).waitReg = s.waitReg := rfl
@[simp] theorem State.beginTick_fault (k : Keys) (s : State) : (s.beginTick k).fault = s.fault := rfl
@[simp] theorem State.beginTick_driver (k : Keys) (s : State) : (s.beginTick k).driver = s.driver := rfl

/-! ## countDown -/

@[simp] theorem State.countDown_mem (s : State) : s.countDown.mem = s.mem := rfl
@[simp] theorem State.countDown_V (s : State) : s.countDown.V = s.V := rfl
@[simp] theorem State.countDown_I (s : State) : s.countDown.I = s.I := rfl
@[simp] theorem State.countDown_pc (s : State) : s.countDown.pc = s.pc := rfl
@[simp] theorem State.countDown_stack (s : State) : s.countDown.stack = s.stack := rfl
@[simp] theorem State.countDown_SP (s : State) : s.countDown.SP = s.SP := rfl
@[simp] theorem State.countDown_DT (s : State) : s.countDown.DT = timerDown s.DT := rfl
@[simp] theorem State.countDown_ST (s : State) : s.countDown.ST = timerDown s.ST := rfl
@[simp] theorem State.countDown_disp (s : State) : s.countDown.disp = s.disp := rfl
@[simp] theorem State.countDown_redrawPending (s : State) : s.countDown.redrawPending = s.redrawPending := rfl
@[simp] theorem State.countDown_keys (s : State) : s.countDown.keys = s.keys := rfl
@[simp] theorem State.countDown_awaitingKey (s : State) : s.countDown.awaitingKey = s.awaitingKey := rfl
@[simp] theorem State.countDown_waitReg (s : State) : s.countDown.waitReg = s.waitReg := rfl
@[simp] theorem State.countDown_fault (s : State) : s.countDown.fault = s.fault := rfl
@[simp] theorem State.countDown_driver (s : State) : s.countDown.driver = s.driver := rfl

/-! ## Registers -/

theorem State.reg_mk (s t : State) (h : t.V = s.V) (r : RegIdx) : t.reg r = s.reg r := by
  simp [State.reg, h]

theorem State.reg_setReg (s : State) (x r : RegIdx) (v : Byte) :
    (s.setReg x v).reg r = if r = x then v else s.reg r := by
  simp only [State.reg, State.setReg, Vector.getElem_set, ← BitVec.toNat_inj]
  by_cases h : x.toNat = r.toNat
  · simp [h]
  · simp [h, Ne.symm h]

@[simp] theorem State.reg_setReg_same (s : State) (x : RegIdx) (v : Byte) : (s.setReg x v).reg x = v := by
  simp [State.reg_setReg]

theorem State.reg_setReg_of_ne (s : State) {x r : RegIdx} (v : Byte) (h : r ≠ x) :
    (s.setReg x v).reg r = s.reg r := by
  simp [State.reg_setReg, h]

@[simp] theorem State.reg_takeMove (s : State) (r : RegIdx) : s.takeMove.reg r = s.reg r := rfl

@[simp] theorem State.reg_takeDraw (s : State) (r : RegIdx) : s.takeDraw.reg r = s.reg r := rfl

@[simp] theorem State.reg_beginTick (k : Keys) (s : State) (r : RegIdx) : (s.beginTick k).reg r = s.reg r := rfl

@[simp] theorem State.reg_countDown (s : State) (r : RegIdx) : s.countDown.reg r = s.reg r := rfl

/-- Two flags and results written in R179's order: the result survives in `V[x]`, the flag in `VF` where `x` ≠ 0xF. -/
theorem State.reg_setFlagThenReg (s : State) (x r : RegIdx) (f v : Byte) :
    (s.setFlagThenReg x f v).reg r = if r = x then v else if r = vf then f else s.reg r := by
  simp [State.setFlagThenReg, State.reg_setReg]

/-- Reading every register determines the register file. -/
theorem State.V_ext {s t : State} (h : ∀ r, t.reg r = s.reg r) : t.V = s.V := by
  apply Vector.ext
  intro i hi
  have := h (BitVec.ofNat 4 i)
  simpa [State.reg, Nat.mod_eq_of_lt hi] using this

/-- What the machine's tick start is, in the operations of the tick. -/
theorem tickStart_eq (k : Keys) (s : State) : tickStart k s = s.takeMove.beginTick k := rfl

@[simp] theorem timerDown_toNat (v : Byte) : (timerDown v).toNat = v.toNat - 1 := by
  unfold timerDown
  split
  · simp_all
  · rename_i h
    have : v.toNat ≠ 0 := fun e => h (BitVec.eq_of_toNat_eq (by simpa using e))
    simp [BitVec.toNat_sub]
    omega

end Sys2Proof.Machine
end

