-- ==== Sys2Proof/Laws/Ops.lean ====
section
/-! SUPPORT. Laws/Ops.lean: for each shared operation, once, everything it can do. -/

namespace Sys2Proof.Machine

/-! ## Completing and raising -/

theorem complete_eq_next {a : Action} {s t : State} :
    complete a s = .next t ↔ t = { s with pc := actionTarget a s.pc } := by
  simp [complete, eq_comm]

theorem raise_eq_next {r : FaultRecord} {s t : State} : raise r s = .next t ↔ t = { s with fault := some r } := by
  simp [raise, eq_comm]

@[simp] theorem actionTarget_skipIf (c : Bool) (pc : Word) :
    actionTarget (skipIf c) pc = pc + if c then 4 else 2 := by
  cases c <;> rfl

/-! ## Range checks (20_memory.md R64, R65) -/

theorem badAddress_eq_none {a n : Nat} : badAddress a n = none ↔ n = 0 ∨ a + n ≤ 4096 := by
  unfold badAddress
  simp only [Config.memSize]
  split
  · simp [*]
  · split <;> simp [*]

theorem badAddress_eq_some {a n bad : Nat} :
    badAddress a n = some bad ↔ n ≠ 0 ∧ 4096 < a + n ∧ bad = max a 4096 := by
  unfold badAddress
  simp only [Config.memSize]
  split
  · simp [*]
  · split
    · simp only [reduceCtorEq, false_iff]
      omega
    · simp only [Option.some.injEq]
      constructor
      · intro h
        exact ⟨‹_›, by omega, h.symm⟩
      · intro h
        exact h.2.2.symm

/-! ## The call stack (10_state.md R30) -/

theorem push_eq_none {s : State} {r : Word} : s.push r = none ↔ s.SP.val = 16 := by
  unfold State.push
  have := s.SP.isLt
  split
  · simp only [reduceCtorEq, false_iff]
    omega
  · simp only [true_iff]
    omega

/-- A push that succeeds writes the slot at `SP` and counts it; nothing else changes. -/
theorem push_eq_some {s t : State} {r : Word} (h : s.push r = some t) :
    ∃ (hk : s.SP.val < 16), t.SP.val = s.SP.val + 1 ∧ t.stack = s.stack.set s.SP.val r hk ∧
      t = { s with stack := t.stack, SP := t.SP } := by
  unfold State.push at h
  split at h
  · rename_i hk
    obtain rfl := Option.some.inj h
    exact ⟨hk, rfl, rfl, rfl⟩
  · cases h

theorem pop_eq_none {s : State} : s.pop = none ↔ s.SP.val = 0 := by
  unfold State.pop
  split <;> simp [*]

/-- A pop that succeeds answers the top slot and uncounts it; nothing else changes, the slot included. -/
theorem pop_eq_some {s t : State} {r : Word} (h : s.pop = some (r, t)) :
    ∃ (k : Nat) (hk : k < 16), s.SP.val = k + 1 ∧ t.SP.val = k ∧ r = s.stack[k] ∧
      t = { s with SP := t.SP } := by
  unfold State.pop at h
  have := s.SP.isLt
  split at h
  · cases h
  · rename_i h0
    simp only [Option.some.injEq, Prod.mk.injEq] at h
    obtain ⟨rfl, rfl⟩ := h
    exact ⟨s.SP.val - 1, by omega, by omega, rfl, rfl, rfl⟩

/-! ## The driver's inputs -/

theorem nextDraw_cons {s : State} {b : Byte} {rest : List Byte} (h : s.driver.draws = b :: rest) :
    s.nextDraw = b := by
  simp [State.nextDraw, h]

theorem nextDraw_nil {s : State} (h : s.driver.draws = []) :
    s.nextDraw = Config.randomByte s.driver.drawn := by
  simp [State.nextDraw, h]

theorem nextMove_cons {s : State} {m : DriverMove} {rest : List DriverMove} (h : s.driver.moves = m :: rest) :
    s.nextMove = m := by
  simp [State.nextMove, h]

theorem nextMove_nil {s : State} (h : s.driver.moves = []) :
    s.nextMove = .tick (Config.keySnapshot s.driver.ticks) := by
  simp [State.nextMove, h]

/-! ## Keys -/

theorem keyState_of_lt {s : State} {v : Byte} (h : v.toNat < 16) : keyState s v = some (s.keys[v.toNat]) := by
  simp [keyState, h]

theorem keyState_of_ge {s : State} {v : Byte} (h : 16 ≤ v.toNat) : keyState s v = none := by
  simp [keyState, Nat.not_lt.mpr h]

/-- The scan's key: pressed, and no lower one is (49_tick_timer_input_wait.md R244). -/
theorem firstPressed_eq_some {k : Keys} {j : Fin 16} :
    firstPressed k = some j ↔ k[j.val] = true ∧ ∀ i (hi : i < j.val), k[i] = false := by
  have hval : ∀ (i : Nat) (h : i < 16), ((⟨i, h⟩ : Fin 16) : Nat) = i := fun _ _ => rfl
  unfold firstPressed
  rw [List.find?_eq_some_iff_getElem]
  constructor
  · rintro ⟨hj, i, hi, rfl, hlt⟩
    refine ⟨hj, fun i' hi' => ?_⟩
    have := hlt i' (by simpa using hi')
    simpa using this
  · rintro ⟨hj, hlt⟩
    refine ⟨hj, j.val, by simp, by simp, fun i hi => ?_⟩
    simpa using hlt i hi

theorem firstPressed_eq_none {k : Keys} : firstPressed k = none ↔ ∀ i (hi : i < 16), k[i] = false := by
  unfold firstPressed
  simp only [List.find?_eq_none, List.mem_finRange, true_implies, Bool.not_eq_true]
  exact ⟨fun h i hi => h ⟨i, hi⟩, fun h j => h j.val j.isLt⟩

/-! ## Fetch (40_engine_fetch_decode_actions.md R121) -/

theorem fetch_ok {s : State} (h : PcValid s) : fetch s = .ok (wordAtPc s) := by
  obtain ⟨h1, h2⟩ := h
  unfold fetch
  rw [if_neg (by simp only [Config.memSize]; omega), if_neg (by omega)]
  rfl

/-- A fetch succeeds exactly at a valid `pc`, with the big-endian word there. -/
theorem fetch_eq_ok {s : State} {w : Word} : fetch s = .ok w ↔ PcValid s ∧ w = wordAtPc s := by
  constructor
  · intro h
    have hv : PcValid s := by
      unfold fetch at h
      simp only [Config.memSize] at h
      split at h
      · cases h
      · split at h
        · cases h
        · exact ⟨by omega, by omega⟩
    refine ⟨hv, ?_⟩
    rw [fetch_ok hv] at h
    exact (Except.ok.inj h).symm
  · rintro ⟨hv, rfl⟩
    exact fetch_ok hv

@[simp] theorem fetch_beginTick (k : Keys) (s : State) : fetch (s.beginTick k) = fetch s := rfl

@[simp] theorem fetch_takeMove (s : State) : fetch s.takeMove = fetch s := rfl

@[simp] theorem fetch_tickStart (k : Keys) (s : State) : fetch (tickStart k s) = fetch s := rfl

@[simp] theorem wordAtPc_tickStart (k : Keys) (s : State) : wordAtPc (tickStart k s) = wordAtPc s := rfl

theorem engineStep_of_decode {s : State} {i : Instr} (h : PcValid s) (hd : decodeWord (wordAtPc s) = some i) :
    engineStep s = exec i s := by
  simp [engineStep, fetch_ok h, hd]

theorem engineStep_of_unimplemented {s : State} (h : PcValid s) (hd : decodeWord (wordAtPc s) = none) :
    engineStep s = raise (unimplementedFault (wordAtPc s) s) s := by
  simp [engineStep, fetch_ok h, hd]

theorem engineStep_of_bad_pc {s : State} {r : FaultRecord} (h : fetch s = .error r) :
    engineStep s = raise r s := by
  simp [engineStep, h]

/-! ## The step (49_tick_timer_input_wait.md R240) -/

theorem step_reset {s : State} {g : Vector Byte 80} {p : List Byte} (h : s.nextMove = .reset g p) :
    step s = .next (resetWith g p s.takeMove.driver) := by
  simp [step, driverMove, h]

theorem step_tick {s : State} {k : Keys} (h : s.nextMove = .tick k) : step s = tick k s.takeMove := by
  simp [step, driverMove, h]

theorem step_halted {s : State} {k : Keys} (h : s.nextMove = .tick k) (hf : s.fault ≠ none) :
    step s = .next s.takeMove := by
  rw [step_tick h]
  unfold tick
  rw [if_pos]
  simpa [State.halted, Option.isSome_iff_ne_none] using hf

theorem step_waiting {s : State} {k : Keys} (h : s.nextMove = .tick k) (hf : s.fault = none)
    (hw : s.awaitingKey = true) : step s = .next (tickStart k s).scan := by
  rw [step_tick h]
  simp [tick, State.halted, hf, hw, tickStart_eq]

theorem step_running {s : State} {k : Keys} (h : RunsWith k s) : step s = endTick (engineStep (tickStart k s)) := by
  rw [step_tick h.1]
  simp [tick, State.halted, h.2.1, h.2.2, tickStart_eq]

/-! ## The end of a run (70_reset_and_hazards.md R298) -/

theorem runEnd_of_fault {s : State} {r : FaultRecord} (h : s.fault = some r) : s.runEnd = some (.faulted r) := by
  simp [State.runEnd, h]

theorem runEnd_of_no_fault {s : State} (h : s.fault = none) :
    s.runEnd = if s.idling then some .done else none := by
  simp [State.runEnd, h]

/-- A run that takes a step goes on from where it leads. -/
theorem runFor_succ_of_next {s t : State} (h : step s = .next t) (n : Nat) : runFor (n + 1) s = runFor n t := by
  simp [runFor, h]

end Sys2Proof.Machine
end

