-- ==== Sys2Proof/Laws/Frame.lean ====
section
/-! SUPPORT. Laws/Frame.lean: the frames of the shared shapes of instructions (10_state.md R43). -/

namespace Sys2Proof.Machine

theorem Unchanged.refl (w : Footprint) (s : State) : Unchanged w s s := by
  constructor <;> intros <;> first | rfl | exact ⟨rfl, rfl⟩

/-- Only `pc` differs. -/
theorem unchanged_pc (w : Footprint) (s : State) (p : Word) : Unchanged w s { s with pc := p } := by
  constructor <;> intros <;> first | rfl | exact ⟨rfl, rfl⟩

/-- One register and `pc` differ. -/
theorem unchanged_setReg (s : State) (x : RegIdx) (v : Byte) (p : Word) :
    Unchanged (onlyReg x) s { s.setReg x v with pc := p } where
  reg _ h := State.reg_setReg_of_ne s v h
  mem _ _ := rfl
  I _ := rfl
  stack _ := ⟨rfl, rfl⟩
  DT _ := rfl
  ST _ := rfl
  disp _ := rfl
  redraw _ := rfl
  wait _ := ⟨rfl, rfl⟩
  draws _ := rfl
  keys := rfl
  fault := rfl

/-- One register, `VF` and `pc` differ. -/
theorem unchanged_setFlagThenReg (s : State) (x : RegIdx) (f v : Byte) (p : Word) :
    Unchanged (regAndFlag x) s { s.setFlagThenReg x f v with pc := p } where
  reg r h := by
    have hx : r ≠ x := fun e => h (.inl e)
    have hf : r ≠ vf := fun e => h (.inr e)
    show (s.setFlagThenReg x f v).reg r = s.reg r
    simp [State.reg_setFlagThenReg, hx, hf]
  mem _ _ := rfl
  I _ := rfl
  stack _ := ⟨rfl, rfl⟩
  DT _ := rfl
  ST _ := rfl
  disp _ := rfl
  redraw _ := rfl
  wait _ := ⟨rfl, rfl⟩
  draws _ := rfl
  keys := rfl
  fault := rfl

/-- Bytes from `I` on and `pc` differ. -/
theorem unchanged_writeBytes (s : State) (vs : List Byte) (p : Word) :
    Unchanged (bytesAtI s vs.length) s { s with mem := Memory.writeBytes s.mem (dataBase s) vs, pc := p } where
  reg _ _ := rfl
  mem a h := Memory.read_writeBytes_of_outside (by
    simp only [bytesAtI] at h
    omega)
  I _ := rfl
  stack _ := ⟨rfl, rfl⟩
  DT _ := rfl
  ST _ := rfl
  disp _ := rfl
  redraw _ := rfl
  wait _ := ⟨rfl, rfl⟩
  draws _ := rfl
  keys := rfl
  fault := rfl

@[simp] theorem length_regBytes (s : State) (x : RegIdx) : (regBytes s x).length = regCount x := by
  have := x.isLt
  simp only [regBytes, regCount, List.length_take, Vector.length_toList]
  omega

theorem getElem_regBytes (s : State) (x : RegIdx) (k : Nat) (h : k < (regBytes s x).length) :
    (regBytes s x)[k] = s.reg (BitVec.ofNat 4 k) := by
  have hk : k < 16 := by
    have := x.isLt
    simp only [length_regBytes, regCount] at h
    omega
  simp [regBytes, State.reg, Nat.mod_eq_of_lt hk]

theorem reg_loadedRegs (s : State) (x r : RegIdx) :
    State.reg { s with V := loadedRegs s x } r =
      if r.toNat < regCount x then Memory.read s.mem (dataBase s + r.toNat) else s.reg r := by
  simp only [State.reg, loadedRegs, Vector.getElem_ofFn]

/-- Registers loaded from memory and `pc` differ. -/
theorem unchanged_loadedRegs (s : State) (x : RegIdx) (p : Word) :
    Unchanged { reg := fun r => r.toNat < regCount x } s { s with V := loadedRegs s x, pc := p } where
  reg r h := (reg_loadedRegs s x r).trans (if_neg h)
  mem _ _ := rfl
  I _ := rfl
  stack _ := ⟨rfl, rfl⟩
  DT _ := rfl
  ST _ := rfl
  disp _ := rfl
  redraw _ := rfl
  wait _ := ⟨rfl, rfl⟩
  draws _ := rfl
  keys := rfl
  fault := rfl

/-- `VF`, the display, the redraw flag and `pc` differ. -/
theorem unchanged_draw (s : State) (v : Byte) (d : Display) (b : Bool) (p : Word) :
    Unchanged { reg := fun r => r = vf, disp := True, redraw := True } s
      { s.setReg vf v with disp := d, redrawPending := b, pc := p } where
  reg _ h := State.reg_setReg_of_ne s v h
  mem _ _ := rfl
  I _ := rfl
  stack _ := ⟨rfl, rfl⟩
  DT _ := rfl
  ST _ := rfl
  disp h := absurd trivial h
  redraw h := absurd trivial h
  wait _ := ⟨rfl, rfl⟩
  draws _ := rfl
  keys := rfl
  fault := rfl

@[simp] theorem length_decimalDigits (v : Byte) : (decimalDigits v).length = 3 := rfl

@[simp] theorem length_spriteBytes (n : Nibble) (s : State) : (spriteBytes n s).length = n.toNat := by
  simp [spriteBytes]

end Sys2Proof.Machine
end

