-- ==== Sys2Proof/Laws/PerInstr.lean ====
section
/-! SUPPORT. Laws/PerInstr.lean: per constructor of Instr, that its opcode word passes the mask and match of its row of
30_encoding.md R98 (opcode_table.json). -/

namespace Sys2Proof.Laws.RowMatch

/-- The encoded word of the instruction selects the instruction's row: `w & mask = match` (R98). -/
def Statement (i : Instr) : Prop := encodeWord i &&& i.row.mask = i.row.bits

theorem formatA_row (f : Nibble) (a : Addr12) : formatA f a &&& 0xF000#16 = formatA f 0 := by
  apply BitVec.eq_of_getLsbD_eq; intro i hi
  simp only [formatA, BitVec.getLsbD_and, BitVec.getLsbD_append]
  interval_cases i <;> simp

theorem formatI_row (f : Nibble) (x : RegIdx) (k : Byte) : formatI f x k &&& 0xF000#16 = formatI f 0 0 := by
  apply BitVec.eq_of_getLsbD_eq; intro i hi
  simp only [formatI, BitVec.getLsbD_and, BitVec.getLsbD_append]
  interval_cases i <;> simp

theorem formatI_row_low (f : Nibble) (x : RegIdx) (k : Byte) : formatI f x k &&& 0xF0FF#16 = formatI f 0 k := by
  apply BitVec.eq_of_getLsbD_eq; intro i hi
  simp only [formatI, BitVec.getLsbD_and, BitVec.getLsbD_append]
  interval_cases i <;> simp

theorem formatR_row (f : Nibble) (x y : RegIdx) (n : Nibble) : formatR f x y n &&& 0xF000#16 = formatR f 0 0 0 := by
  apply BitVec.eq_of_getLsbD_eq; intro i hi
  simp only [formatR, BitVec.getLsbD_and, BitVec.getLsbD_append]
  interval_cases i <;> simp

theorem formatR_row_low (f : Nibble) (x y : RegIdx) (n : Nibble) : formatR f x y n &&& 0xF00F#16 = formatR f 0 0 n := by
  apply BitVec.eq_of_getLsbD_eq; intro i hi
  simp only [formatR, BitVec.getLsbD_and, BitVec.getLsbD_append]
  interval_cases i <;> simp

theorem cls (ign : Nibble) : Statement (.cls ign) := formatI_row_low _ _ _
theorem ret (ign : Nibble) : Statement (.ret ign) := formatI_row_low _ _ _
theorem jp (nnn : Addr12) : Statement (.jp nnn) := formatA_row _ _
theorem call (nnn : Addr12) : Statement (.call nnn) := formatA_row _ _
theorem jpV0 (nnn : Addr12) : Statement (.jpV0 nnn) := formatA_row _ _
theorem seImm (x : RegIdx) (kk : Byte) : Statement (.seImm x kk) := formatI_row _ _ _
theorem sneImm (x : RegIdx) (kk : Byte) : Statement (.sneImm x kk) := formatI_row _ _ _
theorem seReg (x : RegIdx) (y : RegIdx) (ign : Nibble) : Statement (.seReg x y ign) := formatR_row _ _ _ _
theorem sneReg (x : RegIdx) (y : RegIdx) (ign : Nibble) : Statement (.sneReg x y ign) := formatR_row _ _ _ _
theorem ldImm (x : RegIdx) (kk : Byte) : Statement (.ldImm x kk) := formatI_row _ _ _
theorem addImm (x : RegIdx) (kk : Byte) : Statement (.addImm x kk) := formatI_row _ _ _
theorem ldReg (x : RegIdx) (y : RegIdx) : Statement (.ldReg x y) := formatR_row_low _ _ _ _
theorem orReg (x : RegIdx) (y : RegIdx) : Statement (.orReg x y) := formatR_row_low _ _ _ _
theorem andReg (x : RegIdx) (y : RegIdx) : Statement (.andReg x y) := formatR_row_low _ _ _ _
theorem xorReg (x : RegIdx) (y : RegIdx) : Statement (.xorReg x y) := formatR_row_low _ _ _ _
theorem addReg (x : RegIdx) (y : RegIdx) : Statement (.addReg x y) := formatR_row_low _ _ _ _
theorem subReg (x : RegIdx) (y : RegIdx) : Statement (.subReg x y) := formatR_row_low _ _ _ _
theorem shr (x : RegIdx) (y : RegIdx) : Statement (.shr x y) := formatR_row_low _ _ _ _
theorem subn (x : RegIdx) (y : RegIdx) : Statement (.subn x y) := formatR_row_low _ _ _ _
theorem shl (x : RegIdx) (y : RegIdx) : Statement (.shl x y) := formatR_row_low _ _ _ _
theorem ldI (nnn : Addr12) : Statement (.ldI nnn) := formatA_row _ _
theorem addI (x : RegIdx) : Statement (.addI x) := formatI_row_low _ _ _
theorem rnd (x : RegIdx) (kk : Byte) : Statement (.rnd x kk) := formatI_row _ _ _
theorem drw (x : RegIdx) (y : RegIdx) (n : Nibble) : Statement (.drw x y n) := formatR_row _ _ _ _
theorem skp (x : RegIdx) : Statement (.skp x) := formatI_row_low _ _ _
theorem sknp (x : RegIdx) : Statement (.sknp x) := formatI_row_low _ _ _
theorem ldVxDT (x : RegIdx) : Statement (.ldVxDT x) := formatI_row_low _ _ _
theorem ldVxK (x : RegIdx) : Statement (.ldVxK x) := formatI_row_low _ _ _
theorem ldDTVx (x : RegIdx) : Statement (.ldDTVx x) := formatI_row_low _ _ _
theorem ldSTVx (x : RegIdx) : Statement (.ldSTVx x) := formatI_row_low _ _ _
theorem ldF (x : RegIdx) : Statement (.ldF x) := formatI_row_low _ _ _
theorem ldHF (x : RegIdx) : Statement (.ldHF x) := formatI_row_low _ _ _
theorem ldB (x : RegIdx) : Statement (.ldB x) := formatI_row_low _ _ _
theorem stRegs (x : RegIdx) : Statement (.stRegs x) := formatI_row_low _ _ _
theorem ldRegs (x : RegIdx) : Statement (.ldRegs x) := formatI_row_low _ _ _

end Sys2Proof.Laws.RowMatch
end

