-- ==== Sys2Proof/Laws/Reset.lean ====
section
/-! SUPPORT. Laws/Reset.lean: what memory reads as after a reset (70_reset_and_hazards.md R290 to R292). -/

namespace Sys2Proof.Machine

theorem read_glyphMemory (g : Vector Byte 80) (a : Nat) :
    Memory.read (glyphMemory g) a = if h : a < 80 then g[a] else 0 := by
  unfold glyphMemory
  rw [Memory.read_writeBytes]
  by_cases h : a < 80
  · simp [h]
  · simp [h, Memory.unlisted]

/-- The program's bytes from 0x200, the glyph table's from 0, zero elsewhere. -/
theorem read_resetWith {p : List Byte} (hp : p.length ≤ 3584) (g : Vector Byte 80) (d : Driver) (a : Nat) :
    Memory.read (resetWith g p d).mem a =
      if h : 512 ≤ a ∧ a < 512 + p.length then p[a - 512] else if h : a < 80 then g[a] else 0 := by
  unfold resetWith
  rw [if_neg (by simp only [Config.maxProgramLen]; omega)]
  show Memory.read (Memory.writeBytes (glyphMemory g) Config.programBase p) a = _
  rw [Memory.read_writeBytes, read_glyphMemory]

/-- A program that is too long leaves the glyph table's bytes and zeroes. -/
theorem read_resetWith_of_long {p : List Byte} (hp : 3584 < p.length) (g : Vector Byte 80) (d : Driver) (a : Nat) :
    Memory.read (resetWith g p d).mem a = if h : a < 80 then g[a] else 0 := by
  unfold resetWith
  rw [if_pos (by simpa only [Config.maxProgramLen] using hp)]
  exact read_glyphMemory g a

end Sys2Proof.Machine
end

