-- ==== Sys2Proof/Tests/Slice0.lean ====
section
/-! SUPPORT. Tests/Slice0.lean: the model's own tests, each one step on a small state, the expected results from
95_test_vectors.md (the vector is named in the comment) or worked by hand from the rule named; the smoke tests of
WellFormed; and a witness for every statement that has hypotheses. -/

open Sys2Proof Sys2Proof.Machine

namespace Sys2Proof.Tests

/-! ## Helpers -/

/-- The next state of a result. -/
def nextOf (r : Result) : State :=
  match r with
  | .next t => t
  | .fault f => nomatch f
  | .refused _ => State.reset

/-- No key pressed. -/
def noKeys : Keys := Vector.replicate 16 false

/-- The keys of a list. -/
def keysOf (l : List Nat) : Keys := Vector.ofFn fun i : Fin 16 => l.contains i.val

/-- The reset state with these registers set (number, value). -/
def regs (l : List (RegIdx × Byte)) : State := l.foldl (fun s p => s.setReg p.1 p.2) State.reset

/-- The state after one tick that runs the word `w` with these keys. -/
def tickWith (k : Keys) (w : Nat) (s : State) : State :=
  nextOf (step ({ s with driver := { s.driver with moves := [.tick k] } }.withFetchWord 16 w))

/-- The state after one tick that runs the word `w`, no key pressed. -/
def run (w : Nat) (s : State) : State := tickWith noKeys w s

/-! ## WellFormed: an ill-formed term for each check (30_encoding.md R103) -/

theorem test_wf_cls : (Instr.cls 1).wellFormed = false := by decide
theorem test_wf_ret : (Instr.ret 15).wellFormed = false := by decide
theorem test_wf_seReg : (Instr.seReg 10 11 7).wellFormed = false := by decide
theorem test_wf_sneReg : (Instr.sneReg 10 11 1).wellFormed = false := by decide
theorem test_wf_canonical : (Instr.cls 0).wellFormed = true ∧ (Instr.seReg 10 11 0).wellFormed = true ∧
    (Instr.shr 10 11).wellFormed = true := by decide

/-! ## Decode: a word for every constructor, written from the patterns of 30_encoding.md R98 (x = A, y = B) -/

theorem test_decode_cls : decodeWord 0x00E0 = some (.cls 0) := by decide
theorem test_decode_ret : decodeWord 0x00EE = some (.ret 0) := by decide
theorem test_decode_jp : decodeWord 0x1ABC = some (.jp 0xABC) := by decide
theorem test_decode_call : decodeWord 0x2ABC = some (.call 0xABC) := by decide
theorem test_decode_jpV0 : decodeWord 0xBFFF = some (.jpV0 0xFFF) := by decide
theorem test_decode_seImm : decodeWord 0x3A42 = some (.seImm 10 0x42) := by decide
theorem test_decode_sneImm : decodeWord 0x4A42 = some (.sneImm 10 0x42) := by decide
theorem test_decode_seReg : decodeWord 0x5AB0 = some (.seReg 10 11 0) := by decide
theorem test_decode_sneReg : decodeWord 0x9AB0 = some (.sneReg 10 11 0) := by decide
theorem test_decode_ldImm : decodeWord 0x6A42 = some (.ldImm 10 0x42) := by decide
theorem test_decode_addImm : decodeWord 0x7A42 = some (.addImm 10 0x42) := by decide
theorem test_decode_ldReg : decodeWord 0x8AB0 = some (.ldReg 10 11) := by decide
theorem test_decode_orReg : decodeWord 0x8AB1 = some (.orReg 10 11) := by decide
theorem test_decode_andReg : decodeWord 0x8AB2 = some (.andReg 10 11) := by decide
theorem test_decode_xorReg : decodeWord 0x8AB3 = some (.xorReg 10 11) := by decide
theorem test_decode_addReg : decodeWord 0x8AB4 = some (.addReg 10 11) := by decide
theorem test_decode_subReg : decodeWord 0x8AB5 = some (.subReg 10 11) := by decide
theorem test_decode_shr : decodeWord 0x8AB6 = some (.shr 10 11) := by decide
theorem test_decode_subn : decodeWord 0x8AB7 = some (.subn 10 11) := by decide
theorem test_decode_shl : decodeWord 0x8ABE = some (.shl 10 11) := by decide
theorem test_decode_ldI : decodeWord 0xA123 = some (.ldI 0x123) := by decide
theorem test_decode_addI : decodeWord 0xFA1E = some (.addI 10) := by decide
theorem test_decode_rnd : decodeWord 0xCA0F = some (.rnd 10 0x0F) := by decide
theorem test_decode_drw : decodeWord 0xD12A = some (.drw 1 2 10) := by decide
theorem test_decode_skp : decodeWord 0xEA9E = some (.skp 10) := by decide
theorem test_decode_sknp : decodeWord 0xEAA1 = some (.sknp 10) := by decide
theorem test_decode_ldVxDT : decodeWord 0xFA07 = some (.ldVxDT 10) := by decide
theorem test_decode_ldVxK : decodeWord 0xF20A = some (.ldVxK 2) := by decide
theorem test_decode_ldDTVx : decodeWord 0xFA15 = some (.ldDTVx 10) := by decide
theorem test_decode_ldSTVx : decodeWord 0xFA18 = some (.ldSTVx 10) := by decide
theorem test_decode_ldF : decodeWord 0xFA29 = some (.ldF 10) := by decide
theorem test_decode_ldHF : decodeWord 0xFA30 = some (.ldHF 10) := by decide
theorem test_decode_ldB : decodeWord 0xFA33 = some (.ldB 10) := by decide
theorem test_decode_stRegs : decodeWord 0xFA55 = some (.stRegs 10) := by decide
theorem test_decode_ldRegs : decodeWord 0xFA65 = some (.ldRegs 10) := by decide

/-- Bytes: 0xD12A is D1 at the lower address and 2A at the higher (section 2.1); one byte is no instruction. -/
theorem test_decode_bytes : decode [0xD1, 0x2A, 0x77] = .ok (.drw 1 2 10, [0x77]) ∧
    decode [0x00, 0x00] = .error (.unimplemented 0x0000) ∧ decode [0xD1] = .error .truncated := by decide

/-- The host's numbering of a one-word instruction's bits is the word itself. -/
theorem test_decode_tableWord : decodeTableWord 16 0x7A01 = some (.addImm 10 0x01) ∧
    decodeTableWord 16 0x00E0 = some (.cls 0) ∧ decodeTableWord 16 0x8AB8 = none := by decide

/-! ## Screen/control and jump/call (95_test_vectors.md, 2.2) -/

/-- C3. -/
theorem test_cls : (run 0x01E0 { State.reset with disp := Display.setPixel Display.blank 0 0 true }).disp =
    Display.blank := by decide
/-- C2. -/
theorem test_cls_redraw : (run 0x00E0 State.reset).redrawPending = true ∧ (run 0x00E0 State.reset).pc = 0x202 := by
  decide

/-- A state at 0x204 with `n` addresses on the stack. -/
def stackAt (n : Fin 17) : State := { State.reset with pc := 0x204, SP := n }

/-- C4. -/
theorem test_ret :
    let t := run 0x00EE { stackAt 1 with stack := Vector.replicate 16 0x206 }
    t.pc = 0x206 ∧ t.SP = 0 ∧ t.stack[0] = 0x206 := by decide
/-- C6. -/
theorem test_ret_underflow : (run 0x00EE State.reset).fault = some ⟨.stackUnderflow, 0x00EE, 0x200, 0⟩ := by decide
/-- C9. -/
theorem test_jp : (run 0x12F0 State.reset).pc = 0x2F0 := by decide
/-- C11: an odd target completes. -/
theorem test_jp_odd : (run 0x1201 State.reset).pc = 0x201 ∧ (run 0x1201 State.reset).fault = none := by decide
/-- C15. -/
theorem test_call : (run 0x2300 (stackAt 15)).SP = 16 ∧ (run 0x2300 (stackAt 15)).stack[15] = 0x206 ∧
    (run 0x2300 (stackAt 15)).pc = 0x300 := by decide
/-- C16. -/
theorem test_call_overflow : (run 0x2300 (stackAt 16)).fault = some ⟨.stackOverflow, 0x2300, 0x204, 0⟩ ∧
    (run 0x2300 (stackAt 16)).SP = 16 := by decide
/-- C18. -/
theorem test_jpV0 : (run 0xBFFF (regs [(0, 0xFF)])).pc = 0x10FE := by decide
/-- C17: register 0, not the register bits 11..8 would name. -/
theorem test_jpV0_register : (run 0xB300 (regs [(0, 0x10), (3, 0x20)])).pc = 0x310 := by decide

/-! ## Skip-compare (2.3) -/

/-- K1, K2. -/
theorem test_seImm : (run 0x3A42 (regs [(10, 0x42)])).pc = 0x204 ∧ (run 0x3A42 (regs [(10, 0x41)])).pc = 0x202 := by
  decide
/-- K3, K4. -/
theorem test_sneImm : (run 0x4A42 (regs [(10, 0x42)])).pc = 0x202 ∧ (run 0x4A42 (regs [(10, 0x41)])).pc = 0x204 := by
  decide
/-- K9, K7. -/
theorem test_seReg : (run 0x5AB7 (regs [(10, 7), (11, 7)])).pc = 0x204 ∧
    (run 0x5AB0 (regs [(10, 7), (11, 8)])).pc = 0x202 := by decide
/-- K10, K11. -/
theorem test_sneReg : (run 0x9AB0 (regs [(10, 7), (11, 8)])).pc = 0x204 ∧
    (run 0x9AB0 (regs [(10, 7), (11, 7)])).pc = 0x202 := by decide

/-! ## Load and add immediate (2.4) -/

/-- L2. -/
theorem test_ldImm : (run 0x6F01 State.reset).reg 15 = 0x01 := by decide
/-- L5: no carry flag. -/
theorem test_addImm : (run 0x7A01 (regs [(10, 0xFF), (15, 7)])).reg 10 = 0 ∧
    (run 0x7A01 (regs [(10, 0xFF), (15, 7)])).reg 15 = 7 := by decide

/-! ## Register ALU (2.5) -/

/-- A1. -/
theorem test_ldReg : (run 0x8AB0 (regs [(11, 0x37)])).reg 10 = 0x37 := by decide
/-- A3. -/
theorem test_orReg : (run 0x8AB1 (regs [(10, 0xF0), (11, 0x0F), (15, 5)])).reg 10 = 0xFF ∧
    (run 0x8AB1 (regs [(10, 0xF0), (11, 0x0F), (15, 5)])).reg 15 = 5 := by decide
/-- A4. -/
theorem test_andReg : (run 0x8AB2 (regs [(10, 0xF0), (11, 0x3C)])).reg 10 = 0x30 := by decide
/-- A5. -/
theorem test_xorReg : (run 0x8AB3 (regs [(10, 0xFF), (11, 0x0F)])).reg 10 = 0xF0 := by decide
/-- A7, A8. -/
theorem test_addReg : (run 0x8AB4 (regs [(10, 0xFF), (11, 1)])).V.toList =
      (regs [(10, 0), (11, 1), (15, 1)]).V.toList ∧
    (run 0x8AB4 (regs [(10, 1), (11, 1), (15, 1)])).reg 15 = 0 := by decide
/-- A14, A17: `VF` as destination, and as addend. -/
theorem test_addReg_vf : (run 0x8FB4 (regs [(11, 3), (15, 5)])).reg 15 = 8 ∧
    (run 0x8AF4 (regs [(10, 0x10), (15, 1)])).V.toList = (regs [(10, 0x11)]).V.toList := by decide
/-- A18, A19. -/
theorem test_subReg : (run 0x8AB5 (regs [(10, 5), (11, 3)])).V.toList =
      (regs [(10, 2), (11, 3), (15, 1)]).V.toList ∧
    (run 0x8AB5 (regs [(10, 3), (11, 5), (15, 1)])).V.toList = (regs [(10, 0xFE), (11, 5)]).V.toList := by decide
/-- A20, A22. -/
theorem test_subReg_equal : (run 0x8AB5 (regs [(10, 5), (11, 5), (15, 1)])).reg 15 = 0 ∧
    (run 0x8FB5 (regs [(11, 3), (15, 5)])).reg 15 = 2 := by decide
/-- A25. -/
theorem test_shr : (run 0x8AB6 (regs [(10, 3), (11, 0x55)])).V.toList =
    (regs [(10, 1), (11, 0x55), (15, 1)]).V.toList := by decide
/-- A28, A30. -/
theorem test_shr_edges : (run 0x8AB6 (regs [(10, 0xFF)])).reg 10 = 0x7F ∧
    (run 0x8FB6 (regs [(15, 2)])).reg 15 = 1 := by decide
/-- A32, A33. -/
theorem test_subn : (run 0x8AB7 (regs [(10, 3), (11, 5)])).V.toList =
      (regs [(10, 2), (11, 5), (15, 1)]).V.toList ∧
    (run 0x8AB7 (regs [(10, 5), (11, 3), (15, 1)])).V.toList = (regs [(10, 0xFE), (11, 3)]).V.toList := by decide
/-- A36, A37. -/
theorem test_shl : (run 0x8ABE (regs [(10, 0x81)])).V.toList = (regs [(10, 2), (15, 1)]).V.toList ∧
    (run 0x8ABE (regs [(10, 0x40), (15, 1)])).V.toList = (regs [(10, 0x80)]).V.toList := by decide
/-- A40. -/
theorem test_shl_vf : (run 0x8FBE (regs [(15, 0x81)])).reg 15 = 2 := by decide

/-! ## Indexed move and random (2.6) -/

/-- A state with `I` set. -/
def indexAt (i : Word) (s : State) : State := { s with I := i }

/-- I1. -/
theorem test_ldI : (run 0xA123 (indexAt 0xFFFF State.reset)).I = 0x0123 := by decide
/-- I3, I4. -/
theorem test_addI : (run 0xFA1E (indexAt 0x0EFF (regs [(10, 1), (15, 1)]))).I = 0x0F00 ∧
    (run 0xFA1E (indexAt 0x0EFF (regs [(10, 1), (15, 1)]))).reg 15 = 0 ∧
    (run 0xFA1E (indexAt 0x0F00 (regs [(10, 1)]))).reg 15 = 1 := by decide
/-- I8, I10. -/
theorem test_addI_wrap : (run 0xFA1E (indexAt 0xFFFF (regs [(10, 1)]))).I = 0 ∧
    (run 0xFF1E (indexAt 0x0100 (regs [(15, 5)]))).I = 0x0105 := by decide
/-- I12: the driver has fixed the draw 0xAB. -/
theorem test_rnd : (run 0xCA0F { State.reset with driver := ⟨[], 0, [0xAB], 0⟩ }).reg 10 = 0x0B := by decide
/-- I13: the draw is consumed even for `kk` = 0. -/
theorem test_rnd_consumes : (run 0xCA00 { State.reset with driver := ⟨[], 0, [0xAB, 0xCD], 0⟩ }).driver.draws =
    [0xCD] := by decide

/-! ## Sprite draw (2.7) -/

/-- A state with `I` = 0x300 and bytes there. -/
def sprite (bs : List Byte) (s : State) : State := { s with I := 0x300, mem := Memory.writeBytes [] 0x300 bs }

/-- D1: column wrap. -/
theorem test_drw_wrap_column :
    let t := run 0xDAB1 (sprite [0xF0] (regs [(10, 62)]))
    ((List.finRange 64).filter fun c => Display.pixel t.disp 0 c) = [0, 1, 62, 63] ∧ t.reg 15 = 0 ∧
      t.redrawPending = true := by decide
/-- D6: a collision at (2, 5). -/
theorem test_drw_collision :
    let t := run 0xDAB1 { sprite [0xF0] (regs [(10, 4), (11, 2)]) with
      disp := Display.setPixel (Display.setPixel Display.blank 2 5 true) 2 9 true }
    ((List.finRange 64).filter fun c => Display.pixel t.disp 2 c) = [4, 6, 7, 9] ∧ t.reg 15 = 1 := by decide

/-! ## Key skips (2.8) -/

/-- Y1, Y6: the key that `V[x]` names, not key `x`. -/
theorem test_skp : (tickWith (keysOf [5]) 0xEA9E (regs [(10, 5)])).pc = 0x204 ∧
    (tickWith (keysOf [5]) 0xE59E State.reset).pc = 0x202 := by decide
/-- Y8. -/
theorem test_skp_range : (tickWith (keysOf [0, 1]) 0xEA9E (regs [(10, 0x10)])).fault =
    some ⟨.keyIndexOutOfRange, 0xEA9E, 0x200, 0x10⟩ := by decide
/-- Y4, Y5. -/
theorem test_sknp : (tickWith noKeys 0xEAA1 (regs [(10, 5)])).pc = 0x204 ∧
    (tickWith (keysOf [5]) 0xEAA1 (regs [(10, 5)])).pc = 0x202 := by decide
/-- Y9. -/
theorem test_sknp_range : (run 0xEAA1 (regs [(10, 0xFF)])).fault =
    some ⟨.keyIndexOutOfRange, 0xEAA1, 0x200, 0xFF⟩ := by decide

/-! ## Timer/misc (2.9) -/

/-- T1. -/
theorem test_ldVxDT : (run 0xF107 { State.reset with DT := 2 }).reg 1 = 2 ∧
    (run 0xF107 { State.reset with DT := 2 }).DT = 1 := by decide
/-- T3, T5. -/
theorem test_ldDTVx : (run 0xF015 (regs [(0, 3)])).DT = 2 ∧ (run 0xF015 { State.reset with DT := 9 }).DT = 0 := by
  decide
/-- T7, T8. -/
theorem test_ldSTVx : (run 0xF018 (regs [(0, 0x0A)])).ST = 9 ∧ (run 0xF018 (regs [(0, 0x0A)])).soundOut = true ∧
    (run 0xF018 (regs [(0, 1)])).soundOut = false := by decide
/-- T9: a key already held does not end the wait in the tick that enters it. -/
theorem test_ldVxK :
    let t := tickWith (keysOf [3]) 0xF20A { State.reset with pc := 0x206, DT := 5 }
    t.awaitingKey = true ∧ t.waitReg = 2 ∧ t.pc = 0x208 ∧ t.DT = 4 ∧ t.reg 2 = 0 := by decide
/-- T12, T13. -/
theorem test_ldF : (run 0xFA29 (regs [(10, 0x0F)])).I = 0x4B ∧ (run 0xFA29 (regs [(10, 0xFF)])).I = 0x4FB := by decide
/-- T14, T15. -/
theorem test_ldHF : (run 0xFA30 (regs [(10, 3)])).I = 0x1E ∧ (run 0xFA30 (regs [(10, 0xFF)])).I = 0x9F6 := by decide
/-- T16. -/
theorem test_ldB : Memory.readBytes (run 0xFA33 (indexAt 0x300 (regs [(10, 0x9C)]))).mem 0x300 3 = [1, 5, 6] := by
  decide
/-- T17, T21: the last legal `I`, and one past it. -/
theorem test_ldB_edge : Memory.readBytes (run 0xFA33 (indexAt 0xFFD (regs [(10, 0xFF)]))).mem 0xFFD 3 = [2, 5, 5] ∧
    (run 0xFA33 (indexAt 0xFFE (regs [(10, 0x9C)]))).fault = some ⟨.addressOutOfRange, 0xFA33, 0x1000, 0⟩ := by decide
/-- T23. -/
theorem test_stRegs :
    let t := run 0xF255 (indexAt 0x400 (regs [(0, 0x11), (1, 0x22), (2, 0x33), (3, 0x44)]))
    Memory.readBytes t.mem 0x400 4 = [0x11, 0x22, 0x33, 0] ∧ t.I = 0x400 := by decide
/-- T26: a store past the end writes nothing. -/
theorem test_stRegs_edge :
    (run 0xFF55 (indexAt 0xFF1 (regs [(0, 1)]))).fault = some ⟨.addressOutOfRange, 0xFF55, 0x1000, 0⟩ ∧
    Memory.read (run 0xFF55 (indexAt 0xFF1 (regs [(0, 1)]))).mem 0xFF1 = 0 := by decide
/-- T28. -/
theorem test_ldRegs :
    let t := run 0xF265 (sprite [1, 5, 6, 7] (regs [(3, 0xEE)]))
    t.V.toList = (regs [(0, 1), (1, 5), (2, 6), (3, 0xEE)]).V.toList ∧ t.I = 0x300 := by decide
/-- T30. -/
theorem test_ldRegs_edge :
    let t := run 0xF165 (indexAt 0xFFF (regs [(0, 9), (1, 8)]))
    t.fault = some ⟨.addressOutOfRange, 0xF165, 0x1000, 0⟩ ∧ t.reg 0 = 9 := by decide

/-! ## The tick and reset (2.10) -/

/-- C11's second tick (5), C12's (4). -/
theorem test_fetch_faults :
    (nextOf (step { State.reset with pc := 0x201 })).fault = some ⟨.misalignedPC, 0, 0x201, 0⟩ ∧
    (nextOf (step { State.reset with pc := 0xFFF })).fault = some ⟨.addressOutOfRange, 0, 0x1000, 0⟩ := by decide
/-- M9: keys latched, timer not decremented. -/
theorem test_fault_tick :
    let t := tickWith (keysOf [3]) 0x0000 { State.reset with DT := 5 }
    t.fault = some ⟨.unimplementedInstruction, 0, 0x200, 0⟩ ∧ t.keys = keysOf [3] ∧ t.DT = 5 := by decide

/-- M4's start. -/
def waiting (k : Keys) : State :=
  { State.reset with
    awaitingKey := true, waitReg := 2, DT := 5, ST := 5, pc := 0x208, redrawPending := true,
    driver := ⟨[.tick k], 0, [], 0⟩ }

/-- M5. -/
theorem test_scan :
    let t := nextOf (step (waiting (keysOf [10, 7])))
    t.reg 2 = 7 ∧ t.awaitingKey = false ∧ t.DT = 5 ∧ t.pc = 0x208 := by decide
/-- M4. -/
theorem test_scan_none :
    let t := nextOf (step (waiting noKeys))
    t.awaitingKey = true ∧ t.DT = 5 ∧ t.ST = 5 ∧ t.redrawPending = false := by decide

/-- A state that is halted, whose driver then makes the given move. -/
def haltedThen (m : DriverMove) : State :=
  { State.reset with DT := 5, fault := some ⟨.unimplementedInstruction, 0, 0x200, 0⟩, driver := ⟨[m], 0, [], 0⟩ }

/-- M8. -/
theorem test_halted :
    let t := nextOf (step (haltedThen (.tick (keysOf [0, 15]))))
    t.keys = noKeys ∧ t.DT = 5 ∧ t.pc = 0x200 ∧ t.fault.isSome = true := by decide

/-- A reset with a glyph table of 0x55 bytes and a program. -/
def load (p : List Byte) : DriverMove := .reset (Vector.replicate 80 0x55) p

/-- R290: a reset leads out of a halt. -/
theorem test_reset :
    let t := nextOf (step (haltedThen (load [0x12, 0x34, 0x56])))
    t.fault = none ∧ t.DT = 0 ∧ t.pc = 0x200 := by decide
/-- R290, R291: the last glyph byte, the zeroes after it, the program, the zeroes after it. -/
theorem test_reset_memory (d : Driver) :
    let m := (resetWith (Vector.replicate 80 0x55) [0x12, 0x34, 0x56] d).mem
    Memory.read m 0x4F = 0x55 ∧ Memory.read m 0x50 = 0 ∧ Memory.read m 0x1FF = 0 ∧ Memory.read m 0x200 = 0x12 ∧
      Memory.read m 0x202 = 0x56 ∧ Memory.read m 0x203 = 0 := by
  simp [read_resetWith]

/-! ## Witnesses: for every statement with hypotheses, states and operands that meet all of them together -/

/-- The reset state at `pc`, with the word `w` there, the driver about to tick with the keys `k`. -/
def ready (k : Keys) (pc w : Word) : State :=
  { State.reset with
    pc := pc, mem := Memory.writeBytes [] pc.toNat (wordBytes w), driver := ⟨[.tick k], 0, [], 0⟩ }

/-- A jump at 0x200 to a jump to itself at 0x202. -/
def jumpsThere (k : Keys) : State :=
  { ready k 0x200 0x1202 with mem := Memory.writeBytes [] 0x200 [0x12, 0x02, 0x12, 0x02] }

theorem witness_EncodeOfDecodeIsIdentity : decodeWord 0x5AB7 = some (.seReg 10 11 7) := by decide

/-- At the first and at the last fetchable address. -/
theorem witness_UnimplementedWordsAreExactlyThese :
    (RunsWith noKeys (ready noKeys 0x200 0x0000) ∧ PcValid (ready noKeys 0x200 0x0000) ∧
      decodeWord (wordAtPc (ready noKeys 0x200 0x0000)) = none) ∧
    (RunsWith noKeys (ready noKeys 0xFFE 0xF0FF) ∧ PcValid (ready noKeys 0xFFE 0xF0FF) ∧
      decodeWord (wordAtPc (ready noKeys 0xFFE 0xF0FF)) = none) := by
  refine ⟨⟨⟨rfl, rfl, rfl⟩, ⟨by decide, by decide⟩, by decide⟩, ⟨rfl, rfl, rfl⟩, ⟨by decide, by decide⟩, by decide⟩

theorem witness_IgnoredBitsHaveNoEffect : (stackAt 1).SP.val ≠ 0 ∧ (stackAt 16).SP.val ≠ 0 := by decide

/-- An instruction that completes, at both ends of the fetchable range. -/
theorem witness_StepRunsDecodedInstruction :
    (∃ t, RunsWith noKeys (ready noKeys 0x200 0x6A42) ∧ PcValid (ready noKeys 0x200 0x6A42) ∧
      decode [Memory.read (ready noKeys 0x200 0x6A42).mem 0x200, Memory.read (ready noKeys 0x200 0x6A42).mem 0x201] =
        .ok (.ldImm 10 0x42, []) ∧
      exec (.ldImm 10 0x42) (tickStart noKeys (ready noKeys 0x200 0x6A42)) = .next t ∧ t.fault = none) ∧
    (∃ t, RunsWith noKeys (ready noKeys 0xFFE 0x00EE) ∧ PcValid (ready noKeys 0xFFE 0x00EE) ∧
      decode [Memory.read (ready noKeys 0xFFE 0x00EE).mem 0xFFE, Memory.read (ready noKeys 0xFFE 0x00EE).mem 0xFFF] =
        .ok (.ret 0, []) ∧
      exec (.ret 0) (tickStart noKeys (ready noKeys 0xFFE 0x00EE)) = .next t ∧ t.fault ≠ none) := by
  refine ⟨⟨_, ⟨rfl, rfl, rfl⟩, ⟨by decide, by decide⟩, by decide, rfl, by decide⟩,
    ⟨_, ⟨rfl, rfl, rfl⟩, ⟨by decide, by decide⟩, by decide, rfl, by decide⟩⟩

/-- 4096 and the largest value; 4095; the odd values 4093 and 1. -/
theorem witness_FetchFaultsInOrder (pc : Word) :
    RunsWith noKeys (ready noKeys pc 0x0000) ∧ 4096 ≤ (0x1000 : Word).toNat ∧ 4096 ≤ (0xFFFF : Word).toNat ∧
      (0xFFF : Word).toNat = 4095 ∧ (0xFFD : Word).toNat < 4095 ∧ (0xFFD : Word).toNat % 2 = 1 ∧
      (1 : Word).toNat < 4095 ∧ (1 : Word).toNat % 2 = 1 :=
  ⟨⟨rfl, rfl, rfl⟩, by decide, by decide, by decide, by decide, by decide, by decide, by decide⟩

/-- Also with the stored word at the last fetchable address. -/
theorem witness_StoreIsSeenByNextFetch :
    (∃ t, (indexAt 0x202 State.reset).pc.toNat % 2 = 0 ∧
      (indexAt 0x202 State.reset).I.toNat = (indexAt 0x202 State.reset).pc.toNat + 2 ∧
      1 ≤ (15 : RegIdx).toNat ∧ (indexAt 0x202 State.reset).I.toNat + (15 : RegIdx).toNat < 4096 ∧
      exec (.stRegs 15) (indexAt 0x202 State.reset) = .next t) ∧
    (∃ t, ({ State.reset with pc := 0xFFC, I := 0xFFE } : State).pc.toNat % 2 = 0 ∧
      (0xFFE : Word).toNat = (0xFFC : Word).toNat + 2 ∧ 1 ≤ (1 : RegIdx).toNat ∧
      (0xFFE : Word).toNat + (1 : RegIdx).toNat < 4096 ∧
      exec (.stRegs 1) { State.reset with pc := 0xFFC, I := 0xFFE } = .next t) := by
  refine ⟨⟨_, by decide, by decide, by decide, by decide, rfl⟩, ⟨_, by decide, by decide, by decide, by decide, rfl⟩⟩

theorem witness_FaultsArePreciseAndOfTheirKind :
    State.reset.fault = none ∧ ∃ t, exec (.ret 0) State.reset = .next t ∧ t.fault ≠ none :=
  ⟨rfl, _, rfl, by decide⟩

theorem witness_InstructionsChangeOnlyTheirFootprint :
    State.reset.fault = none ∧ ∃ t, exec (.stRegs 15) State.reset = .next t ∧ t.fault = none :=
  ⟨rfl, _, rfl, by decide⟩

theorem witness_ReturnPopsAndJumps : (stackAt 1).SP.val = 0 + 1 ∧ (stackAt 16).SP.val = 15 + 1 := by decide

theorem witness_ReturnOnEmptyStackFaults : (stackAt 0).SP.val = 0 := by decide

theorem witness_CallPushesReturnAddress : (stackAt 0).SP.val = 0 ∧ (stackAt 15).SP.val = 15 := by decide

theorem witness_CallOnFullStackFaults : (stackAt 16).SP.val = 16 := by decide

theorem witness_ReturnUndoesCall :
    (∃ t, (stackAt 0).SP.val < 16 ∧ exec (.call 0x300) (stackAt 0) = .next t) ∧
    ∃ t, (stackAt 15).SP.val < 16 ∧ exec (.call 0x300) (stackAt 15) = .next t :=
  ⟨⟨_, by decide, rfl⟩, _, by decide, rfl⟩

theorem witness_AddSetsSumAndCarry : (0 : RegIdx) ≠ vf ∧ (14 : RegIdx) ≠ vf := by decide

theorem witness_SubtractsSetDifferenceAndNoBorrow : (0 : RegIdx) ≠ vf ∧ (14 : RegIdx) ≠ vf := by decide

theorem witness_ShiftsMoveOneBitIntoVF : (0 : RegIdx) ≠ vf ∧ (14 : RegIdx) ≠ vf := by decide

/-- A draw the driver has fixed, and none. -/
theorem witness_RandomIsMaskedDraw :
    ({ State.reset with driver := ⟨[], 0, [0xAB], 0⟩ } : State).driver.draws = 0xAB :: [] ∧
      State.reset.driver.draws = [] := by decide

/-- Sprites that end at the last byte of memory, and height 0 past it; a position hit, a pixel missed, a collision. -/
theorem witness_DrawXorsSpriteWithWrap :
    (indexAt 0xFF1 State.reset).I.toNat + (15 : Nibble).toNat ≤ 4096 ∧
    (indexAt 0xFFF State.reset).I.toNat + (1 : Nibble).toNat ≤ 4096 ∧
    (indexAt 0x1000 State.reset).I.toNat + (0 : Nibble).toNat ≤ 4096 ∧
    (14 < (15 : Nibble).toNat ∧ 7 < 8 ∧
      (13 : Fin 32).val = (((regs [(1, 0xFF)]).reg 1).toNat + 14) % 32 ∧
      (6 : Fin 64).val = (((regs [(1, 0xFF)]).reg 1).toNat + 7) % 64) ∧
    (¬ ∃ r c, r < (1 : Nibble).toNat ∧ c < 8 ∧ (1 : Fin 32).val = (0 + r) % 32 ∧ (0 : Fin 64).val = (0 + c) % 64) ∧
    (Display.pixel (Display.setPixel Display.blank 0 0 true) 0 0 = true ∧
      (Memory.read (sprite [0x80] State.reset).mem 0x300).getLsbD (7 - 0) = true) := by
  refine ⟨by decide, by decide, by decide, ⟨by decide, by decide, by decide, by decide⟩, ?_,
    by decide, by decide⟩
  rintro ⟨r, c, hr, _, h, _⟩
  have h0 : r < 1 := hr
  have h1 : (1 : Nat) = (0 + r) % 32 := h
  omega

theorem witness_DrawTwiceRestoresDisplay :
    (sprite [0x80] State.reset).I.toNat + (1 : Nibble).toNat ≤ 4096 ∧ (0 : RegIdx) ≠ vf ∧ (14 : RegIdx) ≠ vf ∧
      (∃ t, exec (.drw 0 14 1) (sprite [0x80] State.reset) = .next t) ∧
      (0 < (1 : Nibble).toNat ∧ 0 < 8 ∧ (0 : Fin 32).val = (((sprite [0x80] State.reset).reg 14).toNat + 0) % 32 ∧
        (0 : Fin 64).val = (((sprite [0x80] State.reset).reg 0).toNat + 0) % 64 ∧
        Display.pixel (sprite [0x80] State.reset).disp 0 0 = false ∧
        (Memory.read (sprite [0x80] State.reset).mem (0x300 + 0)).getLsbD (7 - 0) = true) :=
  ⟨by decide, by decide, by decide, ⟨_, rfl⟩, by decide, by decide, by decide, by decide, by decide, by decide⟩

theorem witness_KeySkipsTestKeyNamedByVx : ((regs []).reg 0).toNat < 16 ∧ ((regs [(10, 15)]).reg 10).toNat < 16 := by
  decide

theorem witness_KeySkipsFaultOnLargeIndex :
    16 ≤ ((regs [(10, 16)]).reg 10).toNat ∧ 16 ≤ ((regs [(10, 0xFF)]).reg 10).toNat := by decide

theorem witness_KeyWaitIsEntered :
    ∃ t, exec (.ldVxK 2) (ready noKeys 0x200 0xF20A) = .next t ∧ t.fault = none ∧ t.nextMove = .tick noKeys :=
  ⟨_, rfl, rfl, rfl⟩

/-- The largest `I` that is in range. -/
theorem witness_DecimalStoreWritesThreeDigits : (indexAt 0xFFD State.reset).I.toNat + 2 < 4096 := by decide

theorem witness_RegisterStoreWritesV0ToVx :
    (indexAt 0xFF0 State.reset).I.toNat + (15 : RegIdx).toNat < 4096 ∧
    (indexAt 0xFFF State.reset).I.toNat + (0 : RegIdx).toNat < 4096 ∧ (15 : RegIdx).toNat ≤ (15 : RegIdx).toNat := by
  decide

theorem witness_RegisterLoadReadsV0ToVx :
    (indexAt 0xFF0 State.reset).I.toNat + (15 : RegIdx).toNat < 4096 ∧
    (indexAt 0xFFF State.reset).I.toNat + (0 : RegIdx).toNat < 4096 ∧ (0 : RegIdx).toNat ≤ (0 : RegIdx).toNat := by
  decide

/-- Each form one byte past the end of memory, and the largest `I`. -/
theorem witness_DataAccessFaultsOutOfRange :
    ((∃ x y k, Instr.drw 0 1 15 = .drw x y k ∧ 15 = k.toNat) ∧ 4096 < (indexAt 0xFF2 State.reset).I.toNat + 15) ∧
    ((∃ x, Instr.ldB 3 = .ldB x ∧ 3 = 3) ∧ 4096 < (indexAt 0xFFE State.reset).I.toNat + 3) ∧
    ((∃ x, Instr.stRegs 15 = .stRegs x ∧ 16 = x.toNat + 1) ∧ 4096 < (indexAt 0xFF1 State.reset).I.toNat + 16) ∧
    ((∃ x, Instr.ldRegs 0 = .ldRegs x ∧ 1 = x.toNat + 1) ∧ 4096 < (indexAt 0x1000 State.reset).I.toNat + 1) ∧
    ((∃ x, Instr.ldRegs 0 = .ldRegs x ∧ 1 = x.toNat + 1) ∧ 4096 < (indexAt 0xFFFF State.reset).I.toNat + 1) :=
  ⟨⟨⟨_, _, _, rfl, by decide⟩, by decide⟩, ⟨⟨_, rfl, rfl⟩, by decide⟩, ⟨⟨_, rfl, by decide⟩, by decide⟩,
    ⟨⟨_, rfl, by decide⟩, by decide⟩, ⟨_, rfl, by decide⟩, by decide⟩

/-- A tick, a reset with the empty program and one with the longest. -/
theorem witness_HaltedUntilReset :
    ((haltedThen (.tick noKeys)).fault ≠ none ∧ (haltedThen (.tick noKeys)).nextMove = .tick noKeys) ∧
    ((haltedThen (load [])).fault ≠ none ∧
      (haltedThen (load [])).nextMove = .reset (Vector.replicate 80 0x55) [] ∧ ([] : List Byte).length ≤ 3584) ∧
    ((haltedThen (load (List.replicate 3584 0x12))).nextMove =
        .reset (Vector.replicate 80 0x55) (List.replicate 3584 0x12) ∧
      (List.replicate 3584 (0x12 : Byte)).length ≤ 3584) :=
  ⟨⟨by decide, rfl⟩, ⟨by decide, rfl, by decide⟩, rfl, List.length_replicate.le⟩

/-- Key 0, key 15 alone, and none. -/
theorem witness_KeyScanTakesLowestKey :
    (∀ k, (waiting k).nextMove = .tick k ∧ (waiting k).fault = none ∧ (waiting k).awaitingKey = true) ∧
    (keysOf [0, 15])[0] = true ∧
    ((keysOf [15])[15] = true ∧ ∀ i (h : i < 15), (keysOf [15])[i] = false) ∧
    ∀ i (h : i < 16), noKeys[i] = false :=
  ⟨fun _ => ⟨rfl, rfl, rfl⟩, by decide, ⟨by decide, by decide⟩, by decide⟩

theorem witness_TimersCountDownAfterInstruction :
    RunsWith noKeys (ready noKeys 0x200 0xF015) ∧ PcValid (ready noKeys 0x200 0xF015) ∧
      decodeWord (wordAtPc (ready noKeys 0x200 0xF015)) = some (.ldDTVx 0) ∧
      ∃ t, exec (.ldDTVx 0) (tickStart noKeys (ready noKeys 0x200 0xF015)) = .next t ∧ t.fault = none :=
  ⟨⟨rfl, rfl, rfl⟩, ⟨by decide, by decide⟩, by decide, _, rfl, rfl⟩

theorem witness_FaultingTickOnlyLatches :
    RunsWith noKeys (ready noKeys 0x200 0x0000) ∧ ∃ t, step (ready noKeys 0x200 0x0000) = .next t ∧ t.fault ≠ none :=
  ⟨⟨rfl, rfl, rfl⟩, _, rfl, by decide⟩

/-- A tick that draws, and one that does not. -/
theorem witness_RedrawMeansDrawnThisTick :
    ((ready noKeys 0x200 0x00E0).nextMove = .tick noKeys ∧ (ready noKeys 0x200 0x00E0).fault = none ∧
      ∃ t, step (ready noKeys 0x200 0x00E0) = .next t ∧ t.redrawPending = true) ∧
    ((waiting noKeys).nextMove = .tick noKeys ∧ (waiting noKeys).fault = none ∧
      ∃ t, step (waiting noKeys) = .next t ∧ t.redrawPending = false) :=
  ⟨⟨rfl, rfl, _, rfl, by decide⟩, rfl, rfl, _, rfl, by decide⟩

/-- A clear-screen of a display with one pixel set. -/
theorem witness_OnlyDrawAndClearChangeDisplay :
    let s : State := { ready noKeys 0x200 0x00E0 with disp := Display.setPixel Display.blank 0 0 true }
    s.nextMove = .tick noKeys ∧ ∃ t, step s = .next t ∧ t.disp ≠ s.disp :=
  ⟨rfl, _, rfl, by decide⟩

/-- Into the wait, out of it, frozen by a fault, and a reset. -/
theorem witness_WaitHasExactlyTwoTransitions :
    (∃ t, step (ready noKeys 0x200 0xF20A) = .next t ∧ (ready noKeys 0x200 0xF20A).nextMove = .tick noKeys ∧
      (ready noKeys 0x200 0xF20A).awaitingKey = false ∧ t.awaitingKey = true) ∧
    (∃ t, step (waiting (keysOf [15])) = .next t ∧ (waiting (keysOf [15])).awaitingKey = true ∧
      t.awaitingKey = false) ∧
    (∃ t, step (haltedThen (.tick noKeys)) = .next t ∧ (haltedThen (.tick noKeys)).fault ≠ none) ∧
    (∃ t, step (haltedThen (load [])) = .next t) :=
  ⟨⟨_, rfl, rfl, rfl, by decide⟩, ⟨_, rfl, rfl, by decide⟩, ⟨_, rfl, by decide⟩, _, rfl⟩

theorem witness_StepKeepsMemoryCanonical :
    MemCanonical State.reset ∧ ∃ t, step State.reset = .next t :=
  ⟨Memory.nil_wf, _, rfl⟩

/-- With a full stack of the largest return address, at the largest `pc`. -/
theorem witness_StepKeepsControlBounded :
    let s : State := { stackAt 16 with stack := Vector.replicate 16 0x1000, pc := 0x10FE }
    ControlBounded s ∧ ∃ t, step s = .next t := by
  refine ⟨⟨by decide, fun k h _ => ?_⟩, _, rfl⟩
  simp

theorem witness_ResetFetchesProgramStart :
    ([0x12, 0x34] : List Byte).length ≤ 3584 ∧ (0x12 :: 0x34 :: List.replicate 3582 (0 : Byte)).length ≤ 3584 :=
  ⟨by decide, by rw [List.length_cons, List.length_cons, List.length_replicate]⟩

/-- The empty program, the longest, and one byte more. -/
theorem witness_ResetInitialisesEverything (p : List Byte) :
    (haltedThen (load p)).nextMove = .reset (Vector.replicate 80 0x55) p ∧ ([] : List Byte).length ≤ 3584 ∧
      (List.replicate 3584 (0x12 : Byte)).length ≤ 3584 ∧ 3584 < (List.replicate 3585 (0x12 : Byte)).length :=
  ⟨rfl, Nat.zero_le _, List.length_replicate.le, by rw [List.length_replicate]; decide⟩

theorem witness_PlacedWordRunsNext : decodeTableWord 16 0x00E0 = some (.cls 0) := by decide

theorem witness_RunEndIsFaultOrSelfJump :
    (ready noKeys 0xFFE 0x1FFE).runEnd = some .done ∧ (ready noKeys 0x200 0x1202).runEnd = none ∧
      (waiting noKeys).runEnd = none ∧ (haltedThen (load [])).runEnd.isSome = true := by decide

/-- Done at once, at the lowest and the highest address; done after a jump; and a fault. -/
theorem witness_EndedRunStaysEnded :
    ((ready noKeys 0x200 0x1200).nextMove = .tick noKeys ∧ (ready noKeys 0x200 0x1200).runEnd = some .done) ∧
    (OnlyTicks (ready noKeys 0xFFE 0x1FFE) ∧ RunEnds (ready noKeys 0xFFE 0x1FFE) 0 .done) ∧
    (OnlyTicks (jumpsThere noKeys) ∧ RunEnds (jumpsThere noKeys) 1 .done) ∧
    (OnlyTicks State.reset ∧ RunEnds State.reset 1 (.faulted ⟨.unimplementedInstruction, 0, 0x200, 0⟩)) := by
  refine ⟨⟨rfl, by decide⟩, ⟨by unfold OnlyTicks; decide, ⟨_, rfl, by decide⟩, fun m h => absurd h (Nat.not_lt_zero m)⟩,
    ⟨by unfold OnlyTicks; decide, ⟨_, rfl, by decide⟩, fun m h t ht => ?_⟩,
    ⟨by unfold OnlyTicks; decide, ⟨_, rfl, by decide⟩, fun m h t ht => ?_⟩⟩
  · obtain rfl : m = 0 := by omega
    cases ht
    decide
  · obtain rfl : m = 0 := by omega
    cases ht
    decide

end Sys2Proof.Tests
end

section
/-! Proofs about reset (10_state.md R40 to R42). -/

namespace Sys2Proof.Machine

@[simp] theorem resetWith_pc (g : Vector Byte 80) (p : List Byte) (d : Driver) : (resetWith g p d).pc = 0x200 := by
  unfold resetWith
  split
  · rfl
  · rfl

/-- R27 at reset: the first fetch finds a valid `pc`, whatever was loaded. -/
theorem pcValid_resetWith (g : Vector Byte 80) (p : List Byte) (d : Driver) : PcValid (resetWith g p d) := by
  unfold PcValid
  rw [resetWith_pc]
  decide

/-- A program that fits stands from 0x200, in its own order. -/
theorem read_resetWith_program {p : List Byte} (hp : p.length ≤ 3584) (g : Vector Byte 80) (d : Driver) {k : Nat}
    (hk : k < p.length) : Memory.read (resetWith g p d).mem (512 + k) = p[k] := by
  rw [read_resetWith hp, dif_pos (by omega)]
  simp only [Nat.add_sub_cancel_left]

/-- The word at `pc` after a reset is big-endian: the program's first byte is the high one. -/
theorem wordAtPc_resetWith {b0 b1 : Byte} {rest : List Byte} (hp : (b0 :: b1 :: rest).length ≤ 3584)
    (g : Vector Byte 80) (d : Driver) : wordAtPc (resetWith g (b0 :: b1 :: rest) d) = b0 ++ b1 := by
  have high : Memory.read (resetWith g (b0 :: b1 :: rest) d).mem 512 = b0 :=
    read_resetWith_program hp g d (k := 0) (by simp)
  have low : Memory.read (resetWith g (b0 :: b1 :: rest) d).mem 513 = b1 :=
    read_resetWith_program hp g d (k := 1) (by simp)
  have base : (resetWith g (b0 :: b1 :: rest) d).pc.toNat = 512 := by
    rw [resetWith_pc]
    rfl
  rw [wordAtPc, base, high, low]

/-- Settles O56: `pc` is valid at reset, so the first fetch answers the word at 0x200, which holds the program's first
two bytes. -/
theorem resetFetchesProgramStart : Obligations.ResetFetchesProgramStart := by
  refine ⟨rfl, fun g b0 b1 rest d hp => ⟨resetWith_pc g _ d, ?_⟩⟩
  rw [fetch_ok (pcValid_resetWith g _ d), wordAtPc_resetWith hp]

end Sys2Proof.Machine
end

section
/-! Proofs about screen/control and jump/call (41_screen_control_jump_call.md R140 to R144). -/

namespace Sys2Proof.Machine

/-- R93: zero extension keeps every 12-bit address, odd ones and 0xFFF included. -/
@[simp] theorem addrOperand_toNat (nnn : Addr12) : (addrOperand nnn).toNat = nnn.toNat :=
  BitVec.toNat_setWidth_of_le (by decide)

/-- R142: a jump always completes, and its action is the only effect. -/
theorem exec_jp (nnn : Addr12) (s : State) : exec (.jp nnn) s = .next { s with pc := addrOperand nnn } := rfl

/-- Settles O17: the jump's target is the zero-extended operand, and completing with it replaces `pc` alone. -/
theorem jumpSetsPc : Obligations.JumpSetsPc := fun nnn s =>
  ⟨{ s with pc := addrOperand nnn }, exec_jp nnn s, addrOperand_toNat nnn, rfl⟩

end Sys2Proof.Machine
end

section
/-! Proofs about load and add immediate (43_load_add_immediate.md R160, R161). -/

namespace Sys2Proof.Machine

/-- R160: a load completes with the constant in `V[x]`. -/
theorem exec_ldImm (x : RegIdx) (kk : Byte) (s : State) :
    exec (.ldImm x kk) s = complete .next (s.setReg x kk) := rfl

/-- R161: an addition completes with the truncated sum in `V[x]`. -/
theorem exec_addImm (x : RegIdx) (kk : Byte) (s : State) :
    exec (.addImm x kk) s = complete .next (s.setReg x (s.reg x + kk)) := rfl

/-- The shape of every instruction that writes one register and goes on to the next word: that register is read back,
and the frame is `onlyReg`. -/
theorem complete_setReg (x : RegIdx) (v : Byte) (s : State) :
    ∃ t, complete .next (s.setReg x v) = .next t ∧ t.reg x = v ∧ t.pc = s.pc + 2 ∧ Unchanged (onlyReg x) s t :=
  ⟨{ s.setReg x v with pc := s.pc + 2 }, rfl, State.reg_setReg_same s x v, rfl, unchanged_setReg s x v (s.pc + 2)⟩

/-- Settles O23: a load is the write of one register, with the constant for value. -/
theorem loadImmediateSetsRegister : Obligations.LoadImmediateSetsRegister := by
  intro x kk s
  rw [exec_ldImm]
  exact complete_setReg x kk s

/-- Settles O24: an addition is the write of one register, and a byte sum is reduced modulo 256. -/
theorem addImmediateWrapsWithoutFlag : Obligations.AddImmediateWrapsWithoutFlag := by
  intro x kk s
  obtain ⟨t, done, sum, pc, frame⟩ := complete_setReg x (s.reg x + kk) s
  rw [exec_addImm]
  refine ⟨t, done, ?_, pc, frame⟩
  rw [sum, BitVec.toNat_add]

end Sys2Proof.Machine
end

section
/-! Proofs about the register ALU family (44_register_alu.md R170 to R173). -/

namespace Sys2Proof.Machine

/-- R170: a move completes with the old `V[y]` in `V[x]`. -/
theorem exec_ldReg (x y : RegIdx) (s : State) :
    exec (.ldReg x y) s = complete .next (s.setReg x (s.reg y)) := rfl

/-- R171: an OR completes with the OR of the old registers in `V[x]`, and no flag. -/
theorem exec_orReg (x y : RegIdx) (s : State) :
    exec (.orReg x y) s = complete .next (s.setReg x (s.reg x ||| s.reg y)) := rfl

/-- R172: an AND completes with the AND of the old registers in `V[x]`, and no flag. -/
theorem exec_andReg (x y : RegIdx) (s : State) :
    exec (.andReg x y) s = complete .next (s.setReg x (s.reg x &&& s.reg y)) := rfl

/-- R173: an XOR completes with the XOR of the old registers in `V[x]`, and no flag. -/
theorem exec_xorReg (x y : RegIdx) (s : State) :
    exec (.xorReg x y) s = complete .next (s.setReg x (s.reg x ^^^ s.reg y)) := rfl

/-- Settles O25: each of the four is the write of one register, so `VF` is written only where it is the destination. -/
theorem moveAndLogicWriteOnlyVx : Obligations.MoveAndLogicWriteOnlyVx := by
  intro x y s
  rw [exec_ldReg, exec_orReg, exec_andReg, exec_xorReg]
  exact ⟨complete_setReg x (s.reg y) s, complete_setReg x (s.reg x ||| s.reg y) s,
    complete_setReg x (s.reg x &&& s.reg y) s, complete_setReg x (s.reg x ^^^ s.reg y) s⟩

end Sys2Proof.Machine
end

section
/-! Proofs about indexed move (45_indexed_move_random.md R190). -/

namespace Sys2Proof.Machine

/-- `I` and `pc` differ. -/
theorem unchanged_setI (s : State) (i p : Word) : Unchanged { I := True } s { s with I := i, pc := p } where
  reg _ _ := rfl
  mem _ _ := rfl
  I h := absurd trivial h
  stack _ := ⟨rfl, rfl⟩
  DT _ := rfl
  ST _ := rfl
  disp _ := rfl
  redraw _ := rfl
  wait _ := ⟨rfl, rfl⟩
  draws _ := rfl
  keys := rfl
  fault := rfl

/-- The shape of every instruction that writes `I` alone and goes on to the next word. -/
theorem complete_setI (i : Word) (s : State) :
    ∃ t, complete .next { s with I := i } = .next t ∧ t.I = i ∧ t.pc = s.pc + 2 ∧ Unchanged { I := True } s t :=
  ⟨{ s with I := i, pc := s.pc + 2 }, rfl, rfl, rfl, unchanged_setI s i (s.pc + 2)⟩

/-- R190: a load of `I` completes with the zero-extended operand in `I`. -/
theorem exec_ldI (nnn : Addr12) (s : State) :
    exec (.ldI nnn) s = complete .next { s with I := addrOperand nnn } := rfl

/-- Settles O29: a load of `I` is the write of `I` alone, and zero extension keeps the operand's value. -/
theorem loadIndexZeroExtends : Obligations.LoadIndexZeroExtends := by
  intro nnn s
  obtain ⟨t, done, index, pc, frame⟩ := complete_setI (addrOperand nnn) s
  rw [exec_ldI]
  refine ⟨t, done, ?_, pc, frame⟩
  rw [index, addrOperand_toNat]

end Sys2Proof.Machine
end

section
/-! Proofs about the sprite draw (46_sprite_draw.md R200 to R203). -/

namespace Sys2Proof.Machine

/-! ## The flag values (10_state.md R24) -/

theorem flagByte_eq_zero_or_one (b : Bool) : flagByte b = 0 ∨ flagByte b = 1 := by
  cases b with
  | false => exact .inl rfl
  | true => exact .inr rfl

@[simp] theorem flagByte_eq_one {b : Bool} : flagByte b = 1 ↔ b = true := by
  cases b with
  | false => decide
  | true => decide

/-! ## Sprite positions and sprite bytes (R201, R202) -/

theorem eq_spriteRow_iff {row : Fin 32} {cy r : Nat} : row = spriteRow cy r ↔ row.val = (cy + r) % 32 := Fin.ext_iff

theorem eq_spriteCol_iff {col : Fin 64} {cx c : Nat} : col = spriteCol cx c ↔ col.val = (cx + c) % 64 := Fin.ext_iff

theorem getElem_spriteBytes (n : Nibble) (s : State) {r : Nat} (h : r < (spriteBytes n s).length) :
    (spriteBytes n s)[r] = Memory.read s.mem (s.I.toNat + r) :=
  Memory.getElem_readBytes s.mem (dataBase s) n.toNat r h

/-- A sprite has at most 15 rows, so no two of them share a display row. -/
theorem length_spriteBytes_le (n : Nibble) (s : State) : (spriteBytes n s).length ≤ 32 := by
  have := n.isLt
  rw [length_spriteBytes]
  omega

/-! ## The drawn display and the collision, by positions (R200, R203) -/

section
variable (x y : RegIdx) (n : Nibble) (s : State)

theorem pixel_drawResult_of_covered {r c : Nat} {row : Fin 32} {col : Fin 64} (hr : r < n.toNat) (hc : c < 8)
    (hrow : row.val = ((s.reg y).toNat + r) % 32) (hcol : col.val = ((s.reg x).toNat + c) % 64) :
    Display.pixel (drawResult x y n s).1 row col =
      (Display.pixel s.disp row col ^^ spriteBit (Memory.read s.mem (s.I.toNat + r)) c) := by
  obtain ⟨hit, -, -⟩ :=
    blit_spec (s.reg x).toNat (s.reg y).toNat (spriteBytes n s) s.disp (length_spriteBytes_le n s)
  have hlen : r < (spriteBytes n s).length := by rwa [length_spriteBytes]
  rw [eq_spriteRow_iff.mpr hrow, eq_spriteCol_iff.mpr hcol, ← getElem_spriteBytes n s hlen]
  exact hit r c hlen hc

theorem pixel_drawResult_of_not_covered {row : Fin 32} {col : Fin 64}
    (h : ¬ ∃ r c, r < n.toNat ∧ c < 8 ∧ row.val = ((s.reg y).toNat + r) % 32 ∧
      col.val = ((s.reg x).toNat + c) % 64) :
    Display.pixel (drawResult x y n s).1 row col = Display.pixel s.disp row col := by
  obtain ⟨-, miss, -⟩ :=
    blit_spec (s.reg x).toNat (s.reg y).toNat (spriteBytes n s) s.disp (length_spriteBytes_le n s)
  refine miss row col fun r c hr hc hrow hcol => h ⟨r, c, ?_, hc, eq_spriteRow_iff.mp hrow, eq_spriteCol_iff.mp hcol⟩
  rwa [length_spriteBytes] at hr

theorem drawResult_collides_iff :
    (drawResult x y n s).2 = true ↔ ∃ (r c : Nat) (row : Fin 32) (col : Fin 64), r < n.toNat ∧ c < 8 ∧
      row.val = ((s.reg y).toNat + r) % 32 ∧ col.val = ((s.reg x).toNat + c) % 64 ∧
      Display.pixel s.disp row col = true ∧ spriteBit (Memory.read s.mem (s.I.toNat + r)) c = true := by
  obtain ⟨-, -, flag⟩ :=
    blit_spec (s.reg x).toNat (s.reg y).toNat (spriteBytes n s) s.disp (length_spriteBytes_le n s)
  refine flag.trans ⟨?_, ?_⟩
  · rintro ⟨r, c, hr, hc, old, bit⟩
    rw [getElem_spriteBytes] at bit
    rw [length_spriteBytes] at hr
    exact ⟨r, c, _, _, hr, hc, spriteRow_val _ r, spriteCol_val _ c, old, bit⟩
  · rintro ⟨r, c, row, col, hr, hc, hrow, hcol, old, bit⟩
    have hlen : r < (spriteBytes n s).length := by rwa [length_spriteBytes]
    rw [← getElem_spriteBytes n s hlen] at bit
    rw [eq_spriteRow_iff.mpr hrow, eq_spriteCol_iff.mpr hcol] at old
    exact ⟨r, c, hlen, hc, old, bit⟩

end

/-! ## The instruction -/

/-- R200, R206: a draw whose bytes are all in range completes, with `VF`, the display and the redraw flag written. -/
theorem exec_drw_of_inRange (x y : RegIdx) {n : Nibble} {s : State} (h : s.I.toNat + n.toNat ≤ 4096) :
    exec (.drw x y n) s = complete .next
      { s.setReg vf (flagByte (drawResult x y n s).2) with disp := (drawResult x y n s).1, redrawPending := true } := by
  have hrange : badAddress (dataBase s) n.toNat = none := badAddress_eq_none.mpr (.inr h)
  show execDrw x y n s = _
  simp only [execDrw, hrange]

/-- The shape of a draw that completes: `VF` and the display are read back, the redraw flag is set, and the frame is
`unchanged_draw`'s. -/
theorem complete_draw (v : Byte) (d : Display) (s : State) :
    ∃ t, complete .next { s.setReg vf v with disp := d, redrawPending := true } = .next t ∧ t.disp = d ∧
      t.reg vf = v ∧ t.redrawPending = true ∧ t.pc = s.pc + 2 ∧
      Unchanged { reg := fun r => r = vf, disp := True, redraw := True } s t :=
  ⟨{ s.setReg vf v with disp := d, redrawPending := true, pc := s.pc + 2 }, rfl, rfl, State.reg_setReg_same s vf v, rfl,
    rfl, unchanged_draw s v d true (s.pc + 2)⟩

/-- Settles O32: a draw in range writes what the blit makes of the display, and the flag byte of its collision; the
blit's positions are those of the statement, since a wrapped row or column is determined by its value. -/
theorem drawXorsSpriteWithWrap : Obligations.DrawXorsSpriteWithWrap := by
  intro x y n s hrange
  obtain ⟨t, done, disp, flag, redraw, pc, frame⟩ :=
    complete_draw (flagByte (drawResult x y n s).2) (drawResult x y n s).1 s
  rw [exec_drw_of_inRange x y hrange]
  refine ⟨t, done, ?covered, ?notCovered, ?flagValue, ?collision, redraw, pc, frame⟩
  case covered =>
    intro r c row col hr hc hrow hcol
    rw [disp]
    exact pixel_drawResult_of_covered x y n s hr hc hrow hcol
  case notCovered =>
    intro row col h
    rw [disp]
    exact pixel_drawResult_of_not_covered x y n s h
  case flagValue =>
    rw [flag]
    exact flagByte_eq_zero_or_one _
  case collision =>
    rw [flag, flagByte_eq_one]
    exact drawResult_collides_iff x y n s

end Sys2Proof.Machine
end

section
/-! Proofs about the timers and the sound output (48_timer_misc.md R220, R222, R223). -/

namespace Sys2Proof.Machine

/-! ## The timers after the count-down and the sound output -/

/-- The tone sounds exactly while the sound timer has not run out. -/
theorem State.soundOut_eq_true_iff (s : State) : s.soundOut = true ↔ 0 < s.ST.toNat := by
  rw [State.soundOut, bne_iff_ne, ne_eq, BitVec.toNat_eq, Nat.pos_iff_ne_zero]
  exact Iff.rfl

/-- R223: the count-down takes 1 from the sound timer first, so a timer of 1 gives no tone. -/
theorem soundOut_countDown_eq_true_iff (s : State) : s.countDown.soundOut = true ↔ 1 < s.ST.toNat := by
  rw [State.soundOut_eq_true_iff, State.countDown_ST, timerDown_toNat]
  exact Nat.sub_pos_iff_lt

/-! ## The frames of the timer writes -/

/-- `DT` and `pc` differ. -/
theorem unchanged_setDT (s : State) (v : Byte) (p : Word) : Unchanged { DT := True } s { s with DT := v, pc := p } where
  reg _ _ := rfl
  mem _ _ := rfl
  I _ := rfl
  stack _ := ⟨rfl, rfl⟩
  DT h := absurd trivial h
  ST _ := rfl
  disp _ := rfl
  redraw _ := rfl
  wait _ := ⟨rfl, rfl⟩
  draws _ := rfl
  keys := rfl
  fault := rfl

/-- `ST` and `pc` differ. -/
theorem unchanged_setST (s : State) (v : Byte) (p : Word) : Unchanged { ST := True } s { s with ST := v, pc := p } where
  reg _ _ := rfl
  mem _ _ := rfl
  I _ := rfl
  stack _ := ⟨rfl, rfl⟩
  DT _ := rfl
  ST h := absurd trivial h
  disp _ := rfl
  redraw _ := rfl
  wait _ := ⟨rfl, rfl⟩
  draws _ := rfl
  keys := rfl
  fault := rfl

/-! ## The instructions -/

/-- R220: a timer read completes with the delay timer in `V[x]`. -/
theorem exec_ldVxDT (x : RegIdx) (s : State) : exec (.ldVxDT x) s = complete .next (s.setReg x s.DT) := rfl

/-- R222: a write of the delay timer completes with `V[x]` in `DT`. -/
theorem exec_ldDTVx (x : RegIdx) (s : State) : exec (.ldDTVx x) s = complete .next { s with DT := s.reg x } := rfl

/-- R223: a write of the sound timer completes with `V[x]` in `ST`. -/
theorem exec_ldSTVx (x : RegIdx) (s : State) : exec (.ldSTVx x) s = complete .next { s with ST := s.reg x } := rfl

/-- Settles O37: a timer read is the write of one register, with the timer as it stands for value. -/
theorem readDelayTimer : Obligations.ReadDelayTimer := by
  intro x s
  rw [exec_ldVxDT]
  exact complete_setReg x s.DT s

/-- Settles O38: each of the two is the write of one timer, and what the count-down leaves is said of any state. -/
theorem setTimersFromVx : Obligations.SetTimersFromVx := by
  intro x s
  rw [exec_ldDTVx, exec_ldSTVx]
  refine ⟨⟨{ s with DT := s.reg x, pc := s.pc + 2 }, rfl, rfl, rfl, ?delay, unchanged_setDT s _ _⟩,
    ⟨{ s with ST := s.reg x, pc := s.pc + 2 }, rfl, rfl, rfl, ?soundTimer, ?tone, unchanged_setST s _ _⟩⟩
  case delay => exact timerDown_toNat (s.reg x)
  case soundTimer => exact timerDown_toNat (s.reg x)
  case tone => exact soundOut_countDown_eq_true_iff { s with ST := s.reg x, pc := s.pc + 2 }

end Sys2Proof.Machine
end

section
/-! Proofs about the tick, the timers and the input wait (49_tick_timer_input_wait.md R240 to R249), and what they need to
know of one instruction: what it can change (10_state.md R43). -/

namespace Sys2Proof.Machine

/-! ## The frames of the writes that no lemma above has -/

/-- The display, the redraw flag and `pc` differ. -/
theorem unchanged_setDisp (s : State) (d : Display) (b : Bool) (p : Word) :
    Unchanged { disp := True, redraw := True } s { s with disp := d, redrawPending := b, pc := p } :=
  { unchanged_pc { disp := True, redraw := True } s p with
    disp := fun h => absurd trivial h
    redraw := fun h => absurd trivial h }

/-- A push, and `pc`. -/
theorem unchanged_push {s u : State} {r : Word} (h : s.push r = some u) (p : Word) :
    Unchanged { stack := True } s { u with pc := p } := by
  obtain ⟨-, -, -, pushed⟩ := push_eq_some h
  rw [pushed]
  exact { unchanged_pc { stack := True } s p with stack := fun h => absurd trivial h }

/-- A pop, and `pc`. -/
theorem unchanged_pop {s u : State} {r : Word} (h : s.pop = some (r, u)) (p : Word) :
    Unchanged { stack := True } s { u with pc := p } := by
  obtain ⟨-, -, -, -, -, popped⟩ := pop_eq_some h
  rw [popped]
  exact { unchanged_pc { stack := True } s p with stack := fun h => absurd trivial h }

/-- `VF`, `I` and `pc` differ. -/
theorem unchanged_setFlagAndI (s : State) (f : Byte) (i p : Word) :
    Unchanged { reg := fun r => r = vf, I := True } s { s.setReg vf f with I := i, pc := p } :=
  { unchanged_setReg s vf f p with I := fun h => absurd trivial h }

/-- One register, the random byte consumed and `pc` differ. -/
theorem unchanged_takeDraw (s : State) (x : RegIdx) (v : Byte) (p : Word) :
    Unchanged { reg := fun r => r = x, draws := True } s { s.takeDraw.setReg x v with pc := p } :=
  { unchanged_setReg s x v p with draws := fun h => absurd trivial h }

/-- The two wait elements and `pc` differ. -/
theorem unchanged_setWait (s : State) (b : Bool) (x : RegIdx) (p : Word) :
    Unchanged { wait := True } s { s with awaitingKey := b, waitReg := x, pc := p } :=
  { unchanged_pc { wait := True } s p with wait := fun h => absurd trivial h }

/-! ## What one instruction can do (10_state.md R43, 60_exceptions.md R269) -/

section
variable {w : Footprint} {s t u : State}

theorem latched_of_raise {r : FaultRecord} (h : raise r s = .next t) :
    (∃ r, t = { s with fault := some r }) ∨ Unchanged w s t :=
  .inl ⟨r, raise_eq_next.mp h⟩

theorem unchanged_of_complete {a : Action} (h : complete a u = .next t) (frame : ∀ p, Unchanged w s { u with pc := p }) :
    (∃ r, t = { s with fault := some r }) ∨ Unchanged w s t := by
  obtain rfl := complete_eq_next.mp h
  exact .inr (frame _)

end

/-- An instruction either latches a fault and does nothing else, or stays inside its row of the access table. -/
theorem exec_latches_or_unchanged {i : Instr} {s t : State} (h : exec i s = .next t) :
    (∃ r, t = { s with fault := some r }) ∨ Unchanged (footprint i s) s t := by
  cases i with
  | cls ign => exact unchanged_of_complete h (unchanged_setDisp s _ _)
  | ret ign =>
    simp only [exec, execRet] at h
    split at h
    case h_1 r u popped => exact unchanged_of_complete h (unchanged_pop popped)
    case h_2 => exact latched_of_raise h
  | jp nnn => exact unchanged_of_complete h (unchanged_pc _ s)
  | call nnn =>
    simp only [exec, execCall] at h
    split at h
    case h_1 u pushed => exact unchanged_of_complete h (unchanged_push pushed)
    case h_2 => exact latched_of_raise h
  | jpV0 nnn => exact unchanged_of_complete h (unchanged_pc _ s)
  | seImm x kk => exact unchanged_of_complete h (unchanged_pc _ s)
  | sneImm x kk => exact unchanged_of_complete h (unchanged_pc _ s)
  | seReg x y ign => exact unchanged_of_complete h (unchanged_pc _ s)
  | sneReg x y ign => exact unchanged_of_complete h (unchanged_pc _ s)
  | ldImm x kk => exact unchanged_of_complete h (unchanged_setReg s x _)
  | addImm x kk => exact unchanged_of_complete h (unchanged_setReg s x _)
  | ldReg x y => exact unchanged_of_complete h (unchanged_setReg s x _)
  | orReg x y => exact unchanged_of_complete h (unchanged_setReg s x _)
  | andReg x y => exact unchanged_of_complete h (unchanged_setReg s x _)
  | xorReg x y => exact unchanged_of_complete h (unchanged_setReg s x _)
  | addReg x y => exact unchanged_of_complete h (unchanged_setFlagThenReg s x _ _)
  | subReg x y => exact unchanged_of_complete h (unchanged_setFlagThenReg s x _ _)
  | shr x y => exact unchanged_of_complete h (unchanged_setFlagThenReg s x _ _)
  | subn x y => exact unchanged_of_complete h (unchanged_setFlagThenReg s x _ _)
  | shl x y => exact unchanged_of_complete h (unchanged_setFlagThenReg s x _ _)
  | ldI nnn => exact unchanged_of_complete h (unchanged_setI s _)
  | addI x => exact unchanged_of_complete h (unchanged_setFlagAndI s _ _)
  | rnd x kk => exact unchanged_of_complete h (unchanged_takeDraw s x _)
  | drw x y n =>
    simp only [exec, execDrw] at h
    split at h
    · exact latched_of_raise h
    · exact unchanged_of_complete h (unchanged_draw s _ _ _)
  | skp x =>
    simp only [exec, execSkp] at h
    split at h
    · exact unchanged_of_complete h (unchanged_pc _ s)
    · exact latched_of_raise h
  | sknp x =>
    simp only [exec, execSknp] at h
    split at h
    · exact unchanged_of_complete h (unchanged_pc _ s)
    · exact latched_of_raise h
  | ldVxDT x => exact unchanged_of_complete h (unchanged_setReg s x _)
  | ldVxK x => exact unchanged_of_complete h (unchanged_setWait s _ _)
  | ldDTVx x => exact unchanged_of_complete h (unchanged_setDT s _)
  | ldSTVx x => exact unchanged_of_complete h (unchanged_setST s _)
  | ldF x => exact unchanged_of_complete h (unchanged_setI s _)
  | ldHF x => exact unchanged_of_complete h (unchanged_setI s _)
  | ldB x =>
    simp only [exec, execLdB] at h
    split at h
    · exact latched_of_raise h
    · exact unchanged_of_complete h (unchanged_writeBytes s (decimalDigits (s.reg x)))
  | stRegs x =>
    simp only [exec, execStRegs] at h
    split at h
    · exact latched_of_raise h
    · refine unchanged_of_complete h fun p => ?_
      have frame := unchanged_writeBytes s (regBytes s x) p
      rwa [length_regBytes] at frame
  | ldRegs x =>
    simp only [exec, execLdRegs] at h
    split at h
    · exact latched_of_raise h
    · exact unchanged_of_complete h (unchanged_loadedRegs s x)

/-- R34: in the access table only clear-screen and the sprite draw write the redraw flag. -/
theorem footprint_redraw_iff (i : Instr) (s : State) : (footprint i s).redraw ↔ touchesDisplay i := by
  cases i <;> simp [footprint, touchesDisplay, onlyReg, regAndFlag, bytesAtI]

/-- R36: in the access table only `Fx0A` writes the wait elements. -/
theorem footprint_wait_iff (i : Instr) (s : State) : (footprint i s).wait ↔ ∃ x, i = .ldVxK x := by
  cases i <;> simp [footprint, onlyReg, regAndFlag, bytesAtI]

/-- R140, R200: a clear-screen or a sprite draw that raises no fault sets the redraw flag. -/
theorem redrawPending_of_exec_touchesDisplay {i : Instr} {s t : State} (touches : touchesDisplay i)
    (h : exec i s = .next t) (noFault : t.fault = none) : t.redrawPending = true := by
  obtain ⟨ign, rfl⟩ | ⟨x, y, n, rfl⟩ := touches
  · obtain rfl := complete_eq_next.mp h
    rfl
  · simp only [exec, execDrw] at h
    split at h
    · obtain rfl := raise_eq_next.mp h
      cases noFault
    · obtain rfl := complete_eq_next.mp h
      rfl

/-- R221: `Fx0A` completes, and differs from its start in the two wait elements and `pc` alone. -/
theorem exec_ldVxK (x : RegIdx) (s : State) :
    exec (.ldVxK x) s = complete .next { s with awaitingKey := true, waitReg := x } := rfl

section
variable {i : Instr} {s t : State} (h : exec i s = .next t) (frame : Unchanged (footprint i s) s t)
include h frame

theorem exec_redrawPending_iff (clear : s.redrawPending = false) (noFault : t.fault = none) :
    t.redrawPending = true ↔ touchesDisplay i := by
  refine ⟨fun set => ?_, fun touches => redrawPending_of_exec_touchesDisplay touches h noFault⟩
  by_contra untouched
  rw [frame.redraw (mt (footprint_redraw_iff i s).mp untouched), clear] at set
  cases set

theorem exec_waits_iff (running : s.awaitingKey = false) (x : RegIdx) :
    t.awaitingKey = true ∧ t.waitReg = x ↔ i = .ldVxK x := by
  by_cases hi : ∃ y, i = .ldVxK y
  · obtain ⟨y, rfl⟩ := hi
    rw [exec_ldVxK] at h
    obtain rfl := complete_eq_next.mp h
    simp
  · have kept : t.awaitingKey = false := (frame.wait (mt (footprint_wait_iff i s).mp hi)).1.trans running
    simp only [kept, Bool.false_eq_true, false_and, false_iff]
    exact fun e => hi ⟨x, e⟩

end

/-! ## The scan of a blocked tick (R244, R245) -/

theorem State.scan_of_firstPressed {s : State} {j : Fin 16} (h : firstPressed s.keys = some j) :
    s.scan = { s.setReg s.waitReg (BitVec.ofNat 8 j.val) with awaitingKey := false } := by
  simp only [State.scan, h]

theorem State.scan_of_none_pressed {s : State} (h : firstPressed s.keys = none) : s.scan = s := by
  simp only [State.scan, h]

@[simp] theorem State.scan_keys (s : State) : s.scan.keys = s.keys := by
  unfold State.scan
  split <;> rfl

@[simp] theorem State.scan_redrawPending (s : State) : s.scan.redrawPending = s.redrawPending := by
  unfold State.scan
  split <;> rfl

/-- R243: a scan leaves the wait exactly when it finds a key. -/
theorem State.scan_awaitingKey_eq_false_iff {s : State} (waiting : s.awaitingKey = true) :
    s.scan.awaitingKey = false ↔ ∃ j, ∃ h : j < 16, s.keys[j] = true := by
  cases pressed : firstPressed s.keys with
  | some j =>
    rw [State.scan_of_firstPressed pressed]
    exact ⟨fun _ => ⟨j.val, j.isLt, (firstPressed_eq_some.mp pressed).1⟩, fun _ => rfl⟩
  | none =>
    have up := firstPressed_eq_none.mp pressed
    rw [State.scan_of_none_pressed pressed, waiting]
    simp only [Bool.true_eq_false, false_iff]
    rintro ⟨j, hj, down⟩
    rw [up j hj] at down
    cases down

/-! ## The running tick (R246 to R248) -/

theorem endTick_of_fault {t : State} (h : t.fault ≠ none) : endTick (.next t) = .next t :=
  if_pos (Option.isSome_iff_ne_none.mpr h)

theorem endTick_of_noFault {t : State} (h : t.fault = none) : endTick (.next t) = .next t.countDown :=
  if_neg (by simp [State.halted, h])

theorem step_of_exec {k : Keys} {i : Instr} {s t : State} (runs : RunsWith k s) (valid : PcValid s)
    (decodes : decodeWord (wordAtPc s) = some i) (h : exec i (tickStart k s) = .next t) (noFault : t.fault = none) :
    step s = .next t.countDown := by
  have engine : engineStep (tickStart k s) = exec i (tickStart k s) := engineStep_of_decode valid decodes
  rw [step_running runs, engine, h, endTick_of_noFault noFault]

/-- What a running tick can do: fault at fetch, decode or execution, and latch that alone; or run the instruction at a
valid `pc` inside its footprint and count the timers down. -/
theorem step_running_cases {k : Keys} {s t : State} (runs : RunsWith k s) (h : step s = .next t) :
    (∃ r, t = { tickStart k s with fault := some r }) ∨
    (PcValid s ∧ ∃ i u, decodeWord (wordAtPc s) = some i ∧ exec i (tickStart k s) = .next u ∧
      Unchanged (footprint i (tickStart k s)) (tickStart k s) u ∧ t = u.countDown) := by
  rw [step_running runs] at h
  cases fetched : fetch (tickStart k s) with
  | error r =>
    rw [engineStep_of_bad_pc fetched] at h
    cases h
    exact .inl ⟨r, rfl⟩
  | ok w =>
    obtain ⟨valid, -⟩ := fetch_eq_ok.mp fetched
    cases decodes : decodeWord (wordAtPc (tickStart k s)) with
    | none =>
      rw [engineStep_of_unimplemented valid decodes] at h
      cases h
      exact .inl ⟨_, rfl⟩
    | some i =>
      rw [engineStep_of_decode valid decodes] at h
      cases execs : exec i (tickStart k s) with
      | fault f => nomatch f
      | refused f =>
        rw [execs] at h
        cases h
      | next u =>
        rw [execs] at h
        obtain ⟨r, rfl⟩ | frame := exec_latches_or_unchanged execs
        · cases h
          exact .inl ⟨r, rfl⟩
        · rw [endTick_of_noFault (frame.fault.trans runs.2.1)] at h
          cases h
          exact .inr ⟨valid, i, u, decodes, execs, frame, rfl⟩

/-! ## The four statements -/

/-- Settles O46: the scan's key is the lowest pressed one, so it is the key `j` of the statement, or none; either way the
scan's result is written out. -/
theorem keyScanTakesLowestKey : Obligations.KeyScanTakesLowestKey := by
  intro k s ticks noFault waiting
  rw [step_waiting ticks noFault waiting]
  refine ⟨fun j hj down lower => ?_, fun up => ?_⟩
  · have pressed : firstPressed (tickStart k s).keys = some ⟨j, hj⟩ := firstPressed_eq_some.mpr ⟨down, lower⟩
    rw [State.scan_of_firstPressed pressed]
    refine ⟨_, rfl, ?index, fun r other => State.reg_setReg_of_ne (tickStart k s) _ other, rfl⟩
    case index =>
      have written := State.reg_setReg_same (tickStart k s) s.waitReg (BitVec.ofNat 8 j)
      refine (congrArg BitVec.toNat written).trans ?_
      rw [BitVec.toNat_ofNat]
      omega
  · have nonePressed : firstPressed (tickStart k s).keys = none := firstPressed_eq_none.mpr up
    rw [State.scan_of_none_pressed nonePressed]

/-- R246: counting down `n` times is a subtraction floored at 0. -/
theorem toNat_iterate_timerDown (v : Byte) (n : Nat) : (timerDown^[n] v).toNat = v.toNat - n := by
  induction n with
  | zero => rfl
  | succ n ih => rw [Function.iterate_succ_apply', timerDown_toNat, ih, Nat.sub_sub]

/-- Settles O47: the tick ends with the count-down of what the instruction left, and the count-down writes the two timers
alone. -/
theorem timersCountDownAfterInstruction : Obligations.TimersCountDownAfterInstruction := by
  refine ⟨fun k i s t runs valid decodes execs noFault => ?_, toNat_iterate_timerDown⟩
  exact ⟨t.countDown, step_of_exec runs valid decodes execs noFault, timerDown_toNat t.DT, timerDown_toNat t.ST, rfl⟩

/-- Settles O49: a scan never sets the flag, a faulting tick keeps it clear, and an instruction that completes sets it
exactly when it is a clear or a draw. -/
theorem redrawMeansDrawnThisTick : Obligations.RedrawMeansDrawnThisTick := by
  intro k s t ticks noFault h
  cases waiting : s.awaitingKey with
  | true =>
    rw [step_waiting ticks noFault waiting] at h
    cases h
    refine ⟨State.scan_keys _, ?_⟩
    rw [State.scan_redrawPending]
    simp [tickStart]
  | false =>
    obtain ⟨r, rfl⟩ | ⟨valid, i, u, decodes, execs, frame, rfl⟩ := step_running_cases ⟨ticks, noFault, waiting⟩ h
    · exact ⟨rfl, by simp [tickStart]⟩
    · have completed : u.fault = none := frame.fault.trans noFault
      refine ⟨frame.keys, ?_⟩
      rw [State.countDown_redrawPending, exec_redrawPending_iff execs frame rfl completed]
      simp [valid, completed, decodes]

/-- R243, into the wait. -/
theorem enters_wait_iff {k : Keys} {s t : State} (ticks : s.nextMove = .tick k) (running : s.awaitingKey = false)
    (h : step s = .next t) (x : RegIdx) :
    t.awaitingKey = true ∧ t.waitReg = x ↔
      RunsWith k s ∧ PcValid s ∧ decodeWord (wordAtPc s) = some (.ldVxK x) := by
  by_cases noFault : s.fault = none
  · have runs : RunsWith k s := ⟨ticks, noFault, running⟩
    obtain ⟨r, latched⟩ | ⟨valid, i, u, decodes, execs, frame, rfl⟩ := step_running_cases runs h
    · refine ⟨fun waits => ?_, fun ⟨_, valid, decodes⟩ => ?_⟩
      · rw [latched] at waits
        have waiting : s.awaitingKey = true := waits.1
        rw [running] at waiting
        cases waiting
      · rw [step_of_exec runs valid decodes (exec_ldVxK x _) noFault] at h
        cases h
        exact ⟨rfl, rfl⟩
    · refine (exec_waits_iff execs frame running x).trans ?_
      simp [runs, valid, decodes]
  · rw [step_halted ticks noFault] at h
    cases h
    simp [running, RunsWith, noFault]

/-- R243, out of the wait. -/
theorem leaves_wait_iff {k : Keys} {s t : State} (ticks : s.nextMove = .tick k) (waiting : s.awaitingKey = true)
    (h : step s = .next t) :
    t.awaitingKey = false ↔ s.fault = none ∧ ∃ j, ∃ h : j < 16, k[j] = true := by
  by_cases noFault : s.fault = none
  · rw [step_waiting ticks noFault waiting] at h
    cases h
    rw [State.scan_awaitingKey_eq_false_iff (s := tickStart k s) waiting]
    exact (and_iff_right noFault).symm
  · rw [step_halted ticks noFault] at h
    cases h
    simp [waiting, noFault]

/-- R41: every reset, a failed load too, enters `Running`. -/
@[simp] theorem resetWith_awaitingKey (g : Vector Byte 80) (p : List Byte) (d : Driver) :
    (resetWith g p d).awaitingKey = false := by
  unfold resetWith
  split
  · rfl
  · rfl

/-- Settles O51: a running tick enters the wait by `Fx0A` alone, a scan leaves it by a key alone, a halted tick takes the
driver's move and nothing else, and a reset starts `Running`. -/
theorem waitHasExactlyTwoTransitions : Obligations.WaitHasExactlyTwoTransitions := by
  intro s t h
  refine ⟨fun k ticks => ⟨fun running => enters_wait_iff ticks running h, fun waiting => leaves_wait_iff ticks waiting h,
    fun faulted => ?frozen⟩, fun g p resets => ?reset⟩
  case frozen =>
    rw [step_halted ticks faulted] at h
    cases h
    exact ⟨rfl, rfl⟩
  case reset =>
    rw [step_reset resets] at h
    cases h
    exact resetWith_awaitingKey g p _

end Sys2Proof.Machine
end

section
/-! Proofs about the encoding (30_encoding.md R91 to R107). -/

namespace Sys2Proof

/-! ## Decoding what was encoded -/

/-- The decoder reads back the fields that the encoder wrote, format by format. -/
@[simp] theorem decodeWord_encodeWord (i : Instr) : decodeWord (encodeWord i) = some i := by
  cases i with
  | cls | ret => simp [encodeWord, decodeWord, decodeFamily0]
  | jp | call | jpV0 | ldI => simp [encodeWord, decodeWord]
  | seImm | sneImm | ldImm | addImm | rnd => simp [encodeWord, decodeWord]
  | seReg | sneReg | drw => simp [encodeWord, decodeWord]
  | ldReg | orReg | andReg | xorReg | addReg | subReg | shr | subn | shl =>
    simp [encodeWord, decodeWord, decodeFamily8]
  | skp | sknp => simp [encodeWord, decodeWord, decodeFamilyE]
  | ldVxDT | ldVxK | ldDTVx | ldSTVx | addI | ldF | ldHF | ldB | stRegs | ldRegs =>
    simp [encodeWord, decodeWord, decodeFamilyF]

/-- Settles O2: the two bytes of an encoded instruction are its word, which decodes to it. -/
theorem decodeOfEncodeIsIdentity : Obligations.DecodeOfEncodeIsIdentity := by
  intro i rest
  rw [encode, decode_wordBytes, decodeWord_encodeWord]

/-- Settles O1: each of the sixteen words is decoded by evaluation. -/
theorem decodesSpecWords : Obligations.DecodesSpecWords := by
  unfold Obligations.DecodesSpecWords
  decide

/-! ## Encoding what was decoded: a word with the selectors of a format is that format of its own fields -/

section
variable {w : Word} {f : Nibble}

theorem formatA_of_family (hf : (familyOf w).toNat = f.toNat) : formatA f (nnnOf w) = w := by
  rw [← BitVec.eq_of_toNat_eq hf, formatA_fields]

theorem formatI_of_family (hf : (familyOf w).toNat = f.toNat) : formatI f (xOf w) (kkOf w) = w := by
  rw [← BitVec.eq_of_toNat_eq hf, formatI_fields]

theorem formatR_of_family (hf : (familyOf w).toNat = f.toNat) : formatR f (xOf w) (yOf w) (nOf w) = w := by
  rw [← BitVec.eq_of_toNat_eq hf, formatR_fields]

theorem formatI_of_selectors {k : Byte} (hf : (familyOf w).toNat = f.toNat) (hk : (kkOf w).toNat = k.toNat) :
    formatI f (xOf w) k = w := by
  rw [← BitVec.eq_of_toNat_eq hk, formatI_of_family hf]

theorem formatR_of_selectors {n : Nibble} (hf : (familyOf w).toNat = f.toNat) (hn : (nOf w).toNat = n.toNat) :
    formatR f (xOf w) (yOf w) n = w := by
  rw [← BitVec.eq_of_toNat_eq hn, formatR_of_family hf]

end

section
variable {w : Word} {i : Instr}

theorem encodeWord_of_decodeFamily0 (hf : (familyOf w).toNat = 0) (h : decodeFamily0 w = some i) :
    encodeWord i = w := by
  unfold decodeFamily0 at h
  split at h <;> cases h
  all_goals exact formatI_of_selectors hf ‹_›

theorem encodeWord_of_decodeFamily8 (hf : (familyOf w).toNat = 8) (h : decodeFamily8 w = some i) :
    encodeWord i = w := by
  unfold decodeFamily8 at h
  split at h <;> cases h
  all_goals exact formatR_of_selectors hf ‹_›

theorem encodeWord_of_decodeFamilyE (hf : (familyOf w).toNat = 14) (h : decodeFamilyE w = some i) :
    encodeWord i = w := by
  unfold decodeFamilyE at h
  split at h <;> cases h
  all_goals exact formatI_of_selectors hf ‹_›

theorem encodeWord_of_decodeFamilyF (hf : (familyOf w).toNat = 15) (h : decodeFamilyF w = some i) :
    encodeWord i = w := by
  unfold decodeFamilyF at h
  split at h <;> cases h
  all_goals exact formatI_of_selectors hf ‹_›

end

/-- Settles O3: the family and the low selector say which format the word has, and a format of a word's own fields is
the word. -/
theorem encodeOfDecodeIsIdentity : Obligations.EncodeOfDecodeIsIdentity := by
  intro w i h
  unfold decodeWord at h
  split at h
  case h_1 hf => exact encodeWord_of_decodeFamily0 hf h
  case h_9 hf => exact encodeWord_of_decodeFamily8 hf h
  case h_15 hf => exact encodeWord_of_decodeFamilyE hf h
  case h_16 =>
    have last : (familyOf w).toNat = 15 := by
      have := (familyOf w).isLt
      simp only [imp_false] at *
      omega
    exact encodeWord_of_decodeFamilyF last h
  case h_2 hf | h_3 hf | h_11 hf | h_12 hf => cases h; exact formatA_of_family hf
  case h_4 hf | h_5 hf | h_7 hf | h_8 hf | h_13 hf => cases h; exact formatI_of_family hf
  case h_6 hf | h_10 hf | h_14 hf => cases h; exact formatR_of_family hf

/-! ## The rows of the opcode map (R98, R103) -/

/-- The encoded word of every instruction passes the mask and match of its row. -/
theorem encodeWord_and_mask (i : Instr) : encodeWord i &&& i.row.mask = i.row.bits := by
  cases i with
  | jp | call | jpV0 | ldI => exact Laws.RowMatch.formatA_row _ _
  | seImm | sneImm | ldImm | addImm | rnd => exact Laws.RowMatch.formatI_row _ _ _
  | seReg | sneReg | drw => exact Laws.RowMatch.formatR_row _ _ _ _
  | ldReg | orReg | andReg | xorReg | addReg | subReg | shr | subn | shl => exact Laws.RowMatch.formatR_row_low _ _ _ _
  | cls | ret | skp | sknp | ldVxDT | ldVxK | ldDTVx | ldSTVx | addI | ldF | ldHF | ldB | stRegs | ldRegs =>
    exact Laws.RowMatch.formatI_row_low _ _ _

section
variable {w : Word} {f : Nibble}

theorem formatA_of_mask (h : w &&& 0xF000#16 = formatA f 0) : formatA f (nnnOf w) = w := by
  have family := congrArg familyOf h
  rw [← formatA_fields w, Laws.RowMatch.formatA_row, familyOf_formatA, familyOf_formatA] at family
  rw [← family, formatA_fields]

theorem formatI_of_mask (h : w &&& 0xF000#16 = formatI f 0 0) : formatI f (xOf w) (kkOf w) = w := by
  have family := congrArg familyOf h
  rw [← formatI_fields w, Laws.RowMatch.formatI_row, familyOf_formatI, familyOf_formatI] at family
  rw [← family, formatI_fields]

theorem formatR_of_mask (h : w &&& 0xF000#16 = formatR f 0 0 0) : formatR f (xOf w) (yOf w) (nOf w) = w := by
  have family := congrArg familyOf h
  rw [← formatR_fields w, Laws.RowMatch.formatR_row, familyOf_formatR, familyOf_formatR] at family
  rw [← family, formatR_fields]

theorem formatI_of_low_mask {k : Byte} (h : w &&& 0xF0FF#16 = formatI f 0 k) : formatI f (xOf w) k = w := by
  rw [← formatI_fields w, Laws.RowMatch.formatI_row_low] at h
  have family := congrArg familyOf h
  have low := congrArg kkOf h
  rw [familyOf_formatI, familyOf_formatI] at family
  rw [kkOf_formatI, kkOf_formatI] at low
  rw [← family, ← low, formatI_fields]

theorem formatR_of_low_mask {n : Nibble} (h : w &&& 0xF00F#16 = formatR f 0 0 n) : formatR f (xOf w) (yOf w) n = w := by
  rw [← formatR_fields w, Laws.RowMatch.formatR_row_low] at h
  have family := congrArg familyOf h
  have low := congrArg nOf h
  rw [familyOf_formatR, familyOf_formatR] at family
  rw [nOf_formatR, nOf_formatR] at low
  rw [← family, ← low, formatR_fields]

end

/-- A word that passes the mask and match of a row is the word of an instruction of that row: the one whose operands are
the word's own fields. -/
theorem exists_encodeWord_of_mask {w : Word} (i : Instr) (h : w &&& i.row.mask = i.row.bits) :
    ∃ j, encodeWord j = w ∧ j.row = i.row := by
  cases i with
  | cls => exact ⟨.cls (xOf w), formatI_of_low_mask h, rfl⟩
  | ret => exact ⟨.ret (xOf w), formatI_of_low_mask h, rfl⟩
  | jp => exact ⟨.jp (nnnOf w), formatA_of_mask h, rfl⟩
  | call => exact ⟨.call (nnnOf w), formatA_of_mask h, rfl⟩
  | jpV0 => exact ⟨.jpV0 (nnnOf w), formatA_of_mask h, rfl⟩
  | seImm => exact ⟨.seImm (xOf w) (kkOf w), formatI_of_mask h, rfl⟩
  | sneImm => exact ⟨.sneImm (xOf w) (kkOf w), formatI_of_mask h, rfl⟩
  | seReg => exact ⟨.seReg (xOf w) (yOf w) (nOf w), formatR_of_mask h, rfl⟩
  | sneReg => exact ⟨.sneReg (xOf w) (yOf w) (nOf w), formatR_of_mask h, rfl⟩
  | ldImm => exact ⟨.ldImm (xOf w) (kkOf w), formatI_of_mask h, rfl⟩
  | addImm => exact ⟨.addImm (xOf w) (kkOf w), formatI_of_mask h, rfl⟩
  | ldReg => exact ⟨.ldReg (xOf w) (yOf w), formatR_of_low_mask h, rfl⟩
  | orReg => exact ⟨.orReg (xOf w) (yOf w), formatR_of_low_mask h, rfl⟩
  | andReg => exact ⟨.andReg (xOf w) (yOf w), formatR_of_low_mask h, rfl⟩
  | xorReg => exact ⟨.xorReg (xOf w) (yOf w), formatR_of_low_mask h, rfl⟩
  | addReg => exact ⟨.addReg (xOf w) (yOf w), formatR_of_low_mask h, rfl⟩
  | subReg => exact ⟨.subReg (xOf w) (yOf w), formatR_of_low_mask h, rfl⟩
  | shr => exact ⟨.shr (xOf w) (yOf w), formatR_of_low_mask h, rfl⟩
  | subn => exact ⟨.subn (xOf w) (yOf w), formatR_of_low_mask h, rfl⟩
  | shl => exact ⟨.shl (xOf w) (yOf w), formatR_of_low_mask h, rfl⟩
  | ldI => exact ⟨.ldI (nnnOf w), formatA_of_mask h, rfl⟩
  | addI => exact ⟨.addI (xOf w), formatI_of_low_mask h, rfl⟩
  | rnd => exact ⟨.rnd (xOf w) (kkOf w), formatI_of_mask h, rfl⟩
  | drw => exact ⟨.drw (xOf w) (yOf w) (nOf w), formatR_of_mask h, rfl⟩
  | skp => exact ⟨.skp (xOf w), formatI_of_low_mask h, rfl⟩
  | sknp => exact ⟨.sknp (xOf w), formatI_of_low_mask h, rfl⟩
  | ldVxDT => exact ⟨.ldVxDT (xOf w), formatI_of_low_mask h, rfl⟩
  | ldVxK => exact ⟨.ldVxK (xOf w), formatI_of_low_mask h, rfl⟩
  | ldDTVx => exact ⟨.ldDTVx (xOf w), formatI_of_low_mask h, rfl⟩
  | ldSTVx => exact ⟨.ldSTVx (xOf w), formatI_of_low_mask h, rfl⟩
  | ldF => exact ⟨.ldF (xOf w), formatI_of_low_mask h, rfl⟩
  | ldHF => exact ⟨.ldHF (xOf w), formatI_of_low_mask h, rfl⟩
  | ldB => exact ⟨.ldB (xOf w), formatI_of_low_mask h, rfl⟩
  | stRegs => exact ⟨.stRegs (xOf w), formatI_of_low_mask h, rfl⟩
  | ldRegs => exact ⟨.ldRegs (xOf w), formatI_of_low_mask h, rfl⟩

/-- Settles O4: from left to right the word is the word of an instruction of the row, which decodes to it; from right to
left the word is the encoding of what it decodes to, and an encoded word passes its own row's mask. -/
theorem decodeSelectsOpcodeMapRow : Obligations.DecodeSelectsOpcodeMapRow := by
  refine fun w i => ⟨fun h => ?_, ?_⟩
  · obtain ⟨j, rfl, row⟩ := exists_encodeWord_of_mask i h
    exact ⟨j, decodeWord_encodeWord j, row⟩
  · rintro ⟨j, decodes, row⟩
    rw [← encodeOfDecodeIsIdentity w j decodes, ← row]
    exact encodeWord_and_mask j

/-! ## The canonical words (R103) -/

/-- The ignored nibble of format Z stands in bits 11 to 8, so the whole word is checked. -/
theorem formatI_canonical_iff (f : Nibble) (ign : Nibble) (k : Byte) :
    ign = 0 ↔ formatI f ign k &&& 0xFFFF = formatI f 0 k := by
  have whole : formatI f ign k &&& 0xFFFF = formatI f ign k := BitVec.and_allOnes
  rw [whole]
  refine ⟨fun h => by rw [h], fun h => ?_⟩
  simpa using congrArg xOf h

/-- The ignored nibble of the register skips stands in bits 3 to 0. -/
theorem formatR_canonical_iff (f : Nibble) (x y : RegIdx) (ign : Nibble) :
    ign = 0 ↔ formatR f x y ign &&& 0xF00F#16 = formatR f 0 0 0 := by
  rw [Laws.RowMatch.formatR_row_low]
  refine ⟨fun h => by rw [h], fun h => ?_⟩
  simpa using congrArg nOf h

/-- Settles O6: the four rows with ignored bits check them for zero; in every other row the canonical mask is the mask. -/
theorem wellFormedIsCanonical : Obligations.WellFormedIsCanonical := by
  intro i
  cases i with
  | cls ign => exact beq_iff_eq.trans (formatI_canonical_iff 0x0 ign 0xE0)
  | ret ign => exact beq_iff_eq.trans (formatI_canonical_iff 0x0 ign 0xEE)
  | seReg x y ign => exact beq_iff_eq.trans (formatR_canonical_iff 0x5 x y ign)
  | sneReg x y ign => exact beq_iff_eq.trans (formatR_canonical_iff 0x9 x y ign)
  | _ => exact iff_of_true rfl (encodeWord_and_mask _)

/-! ## The words that are no instruction (R104) -/

section
variable (w : Word)

theorem decodeFamily0_eq_none_iff : decodeFamily0 w = none ↔ w.toNat % 256 ∉ [0xE0, 0xEE] := by
  unfold decodeFamily0
  rw [kkOf_toNat]
  split <;> simp_all

theorem decodeFamily8_eq_none_iff : decodeFamily8 w = none ↔ w.toNat % 16 ∈ [8, 9, 10, 11, 12, 13, 15] := by
  have := Nat.mod_lt w.toNat (y := 16) (by decide)
  unfold decodeFamily8
  rw [nOf_toNat]
  split
  case h_10 =>
    simp only [imp_false] at *
    simp only [List.mem_cons, List.not_mem_nil, or_false, true_iff]
    omega
  all_goals simp [*]

theorem decodeFamilyE_eq_none_iff : decodeFamilyE w = none ↔ w.toNat % 256 ∉ [0x9E, 0xA1] := by
  unfold decodeFamilyE
  rw [kkOf_toNat]
  split <;> simp_all

theorem decodeFamilyF_eq_none_iff : decodeFamilyF w = none ↔
    w.toNat % 256 ∉ [0x07, 0x0A, 0x15, 0x18, 0x1E, 0x29, 0x30, 0x33, 0x55, 0x65] := by
  unfold decodeFamilyF
  rw [kkOf_toNat]
  split <;> simp_all

/-- Only the families 0, 8, E and F have a second selector, so only they hold words that are no instruction. -/
theorem decodeWord_eq_none_iff : decodeWord w = none ↔
    (w.toNat / 4096 = 0 ∧ decodeFamily0 w = none) ∨ (w.toNat / 4096 = 8 ∧ decodeFamily8 w = none) ∨
    (w.toNat / 4096 = 14 ∧ decodeFamilyE w = none) ∨ (w.toNat / 4096 = 15 ∧ decodeFamilyF w = none) := by
  have := w.isLt
  unfold decodeWord
  rw [familyOf_toNat]
  split
  case h_16 =>
    have last : w.toNat / 4096 = 15 := by
      simp only [imp_false] at *
      omega
    simp [last]
  all_goals simp [*]

end

end Sys2Proof
end

section
/-! Frames that several families need (10_state.md R43). -/

namespace Sys2Proof.Machine

/-- What two executions with one footprint leave unchanged, the pair leaves unchanged. -/
theorem Unchanged.trans {w : Footprint} {s t u : State} (first : Unchanged w s t) (second : Unchanged w t u) :
    Unchanged w s u where
  reg r h := (second.reg r h).trans (first.reg r h)
  mem a h := (second.mem a h).trans (first.mem a h)
  I h := (second.I h).trans (first.I h)
  stack h := ⟨(second.stack h).1.trans (first.stack h).1, (second.stack h).2.trans (first.stack h).2⟩
  DT h := (second.DT h).trans (first.DT h)
  ST h := (second.ST h).trans (first.ST h)
  disp h := (second.disp h).trans (first.disp h)
  redraw h := (second.redraw h).trans (first.redraw h)
  wait h := ⟨(second.wait h).1.trans (first.wait h).1, (second.wait h).2.trans (first.wait h).2⟩
  draws h := (second.draws h).trans (first.draws h)
  keys := second.keys.trans first.keys
  fault := second.fault.trans first.fault

end Sys2Proof.Machine
end

section
/-! Proofs about clear-screen, return, call and the indexed jump (41_screen_control_jump_call.md R140 to R144). -/

namespace Sys2Proof.Machine

/-- R140: clear-screen completes with a blank display and the redraw flag. -/
theorem exec_cls (ign : Nibble) (s : State) :
    exec (.cls ign) s = complete .next { s with disp := Display.blank, redrawPending := true } := rfl

/-- R144: the indexed jump completes with the sum for target. -/
theorem exec_jpV0 (nnn : Addr12) (s : State) : exec (.jpV0 nnn) s = complete (.jump (indexedTarget nnn s)) s := rfl

/-- R144: the sum fits in 16 bits, so it is the sum of the integers. -/
@[simp] theorem indexedTarget_toNat (nnn : Addr12) (s : State) :
    (indexedTarget nnn s).toNat = nnn.toNat + (s.reg 0).toNat := by
  have := nnn.isLt
  have := (s.reg 0).isLt
  simp only [indexedTarget, BitVec.toNat_add, BitVec.toNat_setWidth]
  omega

section
variable {s u : State} {r : Word}

/-- R141: a return that pops completes with a jump to what it popped. -/
theorem exec_ret_of_pop (ign : Nibble) (h : s.pop = some (r, u)) : exec (.ret ign) s = complete (.jump r) u := by
  simp only [exec, execRet, h]

theorem exec_ret_of_empty (ign : Nibble) (h : s.SP.val = 0) :
    exec (.ret ign) s = raise (instrFault .stackUnderflow (.ret ign) s) s := by
  simp only [exec, execRet, pop_eq_none.mpr h]

/-- R143: a call that pushes completes with a jump to its operand. -/
theorem exec_call_of_push (nnn : Addr12) (h : s.push (s.pc + 2) = some u) :
    exec (.call nnn) s = complete (.jump (addrOperand nnn)) u := by
  simp only [exec, execCall, h]

theorem exec_call_of_full (nnn : Addr12) (h : s.SP.val = 16) :
    exec (.call nnn) s = raise (instrFault .stackOverflow (.call nnn) s) s := by
  simp only [exec, execCall, push_eq_none.mpr h]

theorem exists_push_of_lt (r : Word) (h : s.SP.val < 16) : ∃ u, s.push r = some u := by
  rw [← Option.ne_none_iff_exists', ne_eq, push_eq_none]
  omega

theorem exists_pop_of_ne_zero (h : s.SP.val ≠ 0) : ∃ r u, s.pop = some (r, u) := by
  obtain ⟨⟨r, u⟩, popped⟩ := Option.ne_none_iff_exists'.mp (mt pop_eq_none.mp h)
  exact ⟨r, u, popped⟩

end

/-- Settles O14: the display it completes with is blank, and the frame is `unchanged_setDisp`'s. -/
theorem clearScreenBlanksDisplay : Obligations.ClearScreenBlanksDisplay := by
  intro ign s
  rw [exec_cls]
  exact ⟨_, rfl, Display.pixel_blank, rfl, rfl, unchanged_setDisp s _ _ _⟩

/-- Settles O15: with `SP` = k + 1 the pop answers slot k and changes `SP` alone. -/
theorem returnPopsAndJumps : Obligations.ReturnPopsAndJumps := by
  intro ign s k hk count
  obtain ⟨r, u, popped⟩ := exists_pop_of_ne_zero (s := s) (by omega)
  have frame := unchanged_pop popped r
  obtain ⟨j, hj, before, after, top, rest⟩ := pop_eq_some popped
  obtain rfl : j = k := by omega
  have slots : u.stack = s.stack := by rw [rest]
  rw [exec_ret_of_pop ign popped]
  exact ⟨_, rfl, after, top, slots, frame⟩

/-- Settles O16: the pop fails, and the record raised is the statement's. -/
theorem returnOnEmptyStackFaults : Obligations.ReturnOnEmptyStackFaults :=
  fun ign _ h => exec_ret_of_empty ign h

/-- Settles O18: the push writes the slot at `SP` alone and counts it. -/
theorem callPushesReturnAddress : Obligations.CallPushesReturnAddress := by
  intro nnn s k hk count
  obtain ⟨u, pushed⟩ := exists_push_of_lt (s.pc + 2) (count.symm ▸ hk)
  have frame := unchanged_push pushed (addrOperand nnn)
  obtain ⟨_, after, slots, -⟩ := push_eq_some pushed
  subst count
  rw [exec_call_of_push nnn pushed]
  refine ⟨_, rfl, after, ?pushedSlot, ?otherSlots, addrOperand_toNat nnn, frame⟩
  case pushedSlot => simp [slots]
  case otherSlots =>
    intro j hj other
    simp [slots, other.symm]

/-- Settles O19: the push fails, and the record raised is the statement's. -/
theorem callOnFullStackFaults : Obligations.CallOnFullStackFaults :=
  fun nnn _ h => exec_call_of_full nnn h

/-- Settles O20: the call has counted one entry up, so O15 says that the return pops the slot the call wrote (O18); two
frames that leave out the stack alone compose. -/
theorem returnUndoesCall : Obligations.ReturnUndoesCall := by
  intro nnn ign s t room called
  obtain ⟨t', called', count, slot, -, -, frame⟩ := callPushesReturnAddress nnn s s.SP.val room rfl
  obtain rfl : t = t' := by rw [called] at called'; exact Host.Outcome.next.inj called'
  obtain ⟨u, returned, count', target, -, frame'⟩ := returnPopsAndJumps ign t s.SP.val room count
  exact ⟨u, returned, target.trans slot, Fin.ext count', frame.trans frame'⟩

/-- Settles O21: the target is the integer sum, and completing with it replaces `pc` alone. -/
theorem indexedJumpAddsV0 : Obligations.IndexedJumpAddsV0 := fun nnn s =>
  ⟨{ s with pc := indexedTarget nnn s }, exec_jpV0 nnn s, indexedTarget_toNat nnn s, rfl⟩

end Sys2Proof.Machine
end

section
/-! Proofs about the skips: compare (42_skip_compare.md R150 to R153) and key (47_key_skip.md R210 to R212). -/

namespace Sys2Proof.Machine

/-- R129: a skip that completes advances `pc` by 4 or 2 and changes nothing else. -/
theorem complete_skipIf (c : Bool) (s : State) :
    complete (skipIf c) s = .next { s with pc := s.pc + if c = true then 4 else 2 } := by
  rw [complete, actionTarget_skipIf]

/-- The other way round, for the skips whose condition is a negation. -/
theorem complete_skipIf_not (c : Bool) (s : State) :
    complete (skipIf !c) s = .next { s with pc := s.pc + if c = true then 2 else 4 } := by
  cases c with
  | false => exact complete_skipIf true s
  | true => exact complete_skipIf false s

/-! ## Skip-compare -/

theorem exec_seImm (x : RegIdx) (kk : Byte) (s : State) :
    exec (.seImm x kk) s = complete (skipIf (s.reg x == kk)) s := rfl

theorem exec_sneImm (x : RegIdx) (kk : Byte) (s : State) :
    exec (.sneImm x kk) s = complete (skipIf !(s.reg x == kk)) s := rfl

theorem exec_seReg (x y : RegIdx) (ign : Nibble) (s : State) :
    exec (.seReg x y ign) s = complete (skipIf (s.reg x == s.reg y)) s := rfl

theorem exec_sneReg (x y : RegIdx) (ign : Nibble) (s : State) :
    exec (.sneReg x y ign) s = complete (skipIf !(s.reg x == s.reg y)) s := rfl

/-- Settles O22: each of the four completes with a skip on a comparison, or on its negation. -/
theorem skipComparesAdvancePc : Obligations.SkipComparesAdvancePc := by
  refine fun s => ⟨fun x kk => ?_, fun x kk => ?_, fun x y ign => ?_, fun x y ign => ?_⟩
  · simp only [exec_seImm, complete_skipIf, beq_iff_eq]
  · simp only [exec_sneImm, complete_skipIf_not, beq_iff_eq]
  · simp only [exec_seReg, complete_skipIf, beq_iff_eq]
  · simp only [exec_sneReg, complete_skipIf_not, beq_iff_eq]

/-! ## Key skips -/

section
variable {x : RegIdx} {s : State}

theorem exec_skp_of_key {pressed : Bool} (h : keyState s (s.reg x) = some pressed) :
    exec (.skp x) s = complete (skipIf pressed) s := by
  simp only [exec, execSkp, h]

theorem exec_sknp_of_key {pressed : Bool} (h : keyState s (s.reg x) = some pressed) :
    exec (.sknp x) s = complete (skipIf !pressed) s := by
  simp only [exec, execSknp, h]

theorem exec_skp_of_no_key (h : keyState s (s.reg x) = none) :
    exec (.skp x) s = raise (keyFault (.skp x) (s.reg x) s) s := by
  simp only [exec, execSkp, h]

theorem exec_sknp_of_no_key (h : keyState s (s.reg x) = none) :
    exec (.sknp x) s = raise (keyFault (.sknp x) (s.reg x) s) s := by
  simp only [exec, execSknp, h]

end

/-- Settles O35: below 16 the index names a key, whose state decides the skip. -/
theorem keySkipsTestKeyNamedByVx : Obligations.KeySkipsTestKeyNamedByVx := by
  intro x s h
  have key := keyState_of_lt (s := s) h
  rw [exec_skp_of_key key, exec_sknp_of_key key]
  exact ⟨complete_skipIf _ s, complete_skipIf_not _ s⟩

/-- Settles O36: from 16 on the index names no key, and the record raised is the statement's. -/
theorem keySkipsFaultOnLargeIndex : Obligations.KeySkipsFaultOnLargeIndex := by
  intro x s h
  have noKey := keyState_of_ge (s := s) h
  exact ⟨exec_skp_of_no_key noKey, exec_sknp_of_no_key noKey⟩

end Sys2Proof.Machine
end

section
/-! Proofs about the flag-writing register ALU instructions (44_register_alu.md R174 to R180), and about the bits that no
instruction reads (30_encoding.md R96). -/

namespace Sys2Proof.Machine

theorem exec_addReg (x y : RegIdx) (s : State) : exec (.addReg x y) s =
    complete .next (s.setFlagThenReg x (carryFlag (s.reg x) (s.reg y)) (s.reg x + s.reg y)) := rfl

theorem exec_subReg (x y : RegIdx) (s : State) : exec (.subReg x y) s =
    complete .next (s.setFlagThenReg x (noBorrowFlag (s.reg x) (s.reg y)) (s.reg x - s.reg y)) := rfl

theorem exec_shr (x y : RegIdx) (s : State) : exec (.shr x y) s =
    complete .next (s.setFlagThenReg x (shiftRightFlag (s.reg x)) (s.reg x >>> 1)) := rfl

theorem exec_subn (x y : RegIdx) (s : State) : exec (.subn x y) s =
    complete .next (s.setFlagThenReg x (noBorrowFlag (s.reg y) (s.reg x)) (s.reg y - s.reg x)) := rfl

theorem exec_shl (x y : RegIdx) (s : State) : exec (.shl x y) s =
    complete .next (s.setFlagThenReg x (shiftLeftFlag (s.reg x)) (s.reg x <<< 1)) := rfl

/-- R179: the shape of every instruction that writes a flag and a result: the result is read back also where `x` = 0xF,
the flag elsewhere. -/
theorem complete_setFlagThenReg (x : RegIdx) (f v : Byte) (s : State) :
    ∃ t, complete .next (s.setFlagThenReg x f v) = .next t ∧ t.reg x = v ∧ (x ≠ vf → t.reg vf = f) ∧
      t.pc = s.pc + 2 ∧ Unchanged (regAndFlag x) s t := by
  refine ⟨{ s.setFlagThenReg x f v with pc := s.pc + 2 }, rfl, ?result, fun other => ?flag, rfl,
    unchanged_setFlagThenReg s x f v (s.pc + 2)⟩
  case result => exact (State.reg_setFlagThenReg s x x f v).trans (if_pos rfl)
  case flag => exact (State.reg_setFlagThenReg s x vf f v).trans ((if_neg other.symm).trans (if_pos rfl))

/-! ## The flag values as numbers (R174 to R178) -/

section
variable (a b : Byte)

theorem flagByte_decide (p : Prop) [Decidable p] : flagByte (decide p) = if p then 1 else 0 := by
  simp only [flagByte, decide_eq_true_eq]

/-- Bit `i` of a number as a flag. -/
theorem flagByte_getLsbD_toNat (i : Nat) : (flagByte (a.getLsbD i)).toNat = a.toNat / 2 ^ i % 2 := by
  rw [BitVec.getLsbD, Nat.testBit_eq_decide_div_mod_eq, flagByte_decide]
  split
  case isTrue set => exact set.symm
  case isFalse clear => exact (Nat.mod_two_ne_one.mp clear).symm

theorem shiftRightFlag_toNat : (shiftRightFlag a).toNat = a.toNat % 2 := by
  rw [shiftRightFlag, flagByte_getLsbD_toNat, pow_zero, Nat.div_one]

theorem shiftLeftFlag_toNat : (shiftLeftFlag a).toNat = a.toNat / 128 := by
  have := a.isLt
  rw [shiftLeftFlag, flagByte_getLsbD_toNat]
  omega

theorem toNat_sub_byte : (a - b).toNat = (a.toNat + 256 - b.toNat) % 256 := by
  have := b.isLt
  rw [BitVec.toNat_sub]
  omega

end

/-- Settles O26: the result is the byte sum and the flag its carry. -/
theorem addSetsSumAndCarry : Obligations.AddSetsSumAndCarry := by
  intro x y s
  obtain ⟨t, done, result, flag, pc, frame⟩ :=
    complete_setFlagThenReg x (carryFlag (s.reg x) (s.reg y)) (s.reg x + s.reg y) s
  rw [exec_addReg]
  refine ⟨t, done, ?_, fun other => (flag other).trans (flagByte_decide _), pc, frame⟩
  rw [result, BitVec.toNat_add]

/-- The shape of both subtractions: the difference of a minuend and a subtrahend, and the flag of their comparison. -/
theorem complete_subtract (x : RegIdx) (a b : Byte) (s : State) :
    ∃ t, complete .next (s.setFlagThenReg x (noBorrowFlag a b) (a - b)) = .next t ∧
      (t.reg x).toNat = (a.toNat + 256 - b.toNat) % 256 ∧
      (x ≠ vf → t.reg vf = if a.toNat > b.toNat then 1 else 0) ∧ t.pc = s.pc + 2 ∧ Unchanged (regAndFlag x) s t := by
  obtain ⟨t, done, result, flag, pc, frame⟩ := complete_setFlagThenReg x (noBorrowFlag a b) (a - b) s
  refine ⟨t, done, ?_, fun other => (flag other).trans (flagByte_decide _), pc, frame⟩
  rw [result, toNat_sub_byte]

/-- Settles O27: the two differ in which operand is the minuend. -/
theorem subtractsSetDifferenceAndNoBorrow : Obligations.SubtractsSetDifferenceAndNoBorrow := by
  intro x y s
  rw [exec_subReg, exec_subn]
  exact ⟨complete_subtract x (s.reg x) (s.reg y) s, complete_subtract x (s.reg y) (s.reg x) s⟩

/-- Settles O28: a shift by one halves or doubles, and the bit shifted out is the lowest or the highest. -/
theorem shiftsMoveOneBitIntoVF : Obligations.ShiftsMoveOneBitIntoVF := by
  intro x y s
  constructor
  case left =>
    obtain ⟨t, done, result, flag, pc, frame⟩ :=
      complete_setFlagThenReg x (shiftRightFlag (s.reg x)) (s.reg x >>> 1) s
    rw [exec_shr]
    refine ⟨t, done, ?_, fun other => ?_, pc, frame⟩
    · rw [result, BitVec.toNat_ushiftRight, Nat.shiftRight_one]
    · rw [flag other, shiftRightFlag_toNat]
  case right =>
    obtain ⟨t, done, result, flag, pc, frame⟩ :=
      complete_setFlagThenReg x (shiftLeftFlag (s.reg x)) (s.reg x <<< 1) s
    rw [exec_shl]
    refine ⟨t, done, ?_, fun other => ?_, pc, frame⟩
    · rw [result, BitVec.toNat_shiftLeft, Nat.shiftLeft_eq, pow_one, Nat.mul_comm]
    · rw [flag other, shiftLeftFlag_toNat]

/-- Settles O7: no equation of these instructions mentions the ignored operand. -/
theorem ignoredBitsHaveNoEffect : Obligations.IgnoredBitsHaveNoEffect := by
  refine fun s => ⟨fun a b => ?_, fun nonempty a b => ?_, fun x y a b => ?_, fun x y a b => ?_, fun x y z => ?_,
    fun x y z => ?_⟩
  · rw [exec_cls, exec_cls]
  · obtain ⟨r, u, popped⟩ := exists_pop_of_ne_zero nonempty
    rw [exec_ret_of_pop a popped, exec_ret_of_pop b popped]
  · rw [exec_seReg, exec_seReg]
  · rw [exec_sneReg, exec_sneReg]
  · rw [exec_shr, exec_shr]
  · rw [exec_shl, exec_shl]

end Sys2Proof.Machine
end

section
/-! Proofs about the index sum, random and the glyph addresses (45_indexed_move_random.md R191, R192,
48_timer_misc.md R224, R225). -/

namespace Sys2Proof.Machine

theorem exec_addI (x : RegIdx) (s : State) : exec (.addI x) s =
    complete .next { s.setReg vf (indexFlag (indexSum x s)) with I := indexSum x s } := rfl

theorem exec_rnd (x : RegIdx) (kk : Byte) (s : State) :
    exec (.rnd x kk) s = complete .next (s.takeDraw.setReg x (s.nextDraw &&& kk)) := rfl

theorem exec_ldF (x : RegIdx) (s : State) :
    exec (.ldF x) s = complete .next { s with I := glyphAddress (s.reg x) } := rfl

theorem exec_ldHF (x : RegIdx) (s : State) :
    exec (.ldHF x) s = complete .next { s with I := largeGlyphAddress (s.reg x) } := rfl

/-- R191: the sum is truncated to 16 bits. -/
theorem indexSum_toNat (x : RegIdx) (s : State) :
    (indexSum x s).toNat = (s.I.toNat + (s.reg x).toNat) % 65536 := by
  have := (s.reg x).isLt
  simp only [indexSum, BitVec.toNat_add, BitVec.toNat_setWidth]
  omega

/-- R224: 255 * 5 fits in 16 bits. -/
theorem glyphAddress_toNat (v : Byte) : (glyphAddress v).toNat = v.toNat * 5 := by
  have := v.isLt
  simp only [glyphAddress, BitVec.toNat_ofNat, Config.glyphStride]
  omega

/-- R225: 255 * 10 fits in 16 bits. -/
theorem largeGlyphAddress_toNat (v : Byte) : (largeGlyphAddress v).toNat = v.toNat * 10 := by
  have := v.isLt
  simp only [largeGlyphAddress, BitVec.toNat_ofNat, Config.largeGlyphStride]
  omega

/-- Settles O30: `I` and the flag are written from one sum of the old values. -/
theorem addToIndexSetsThresholdFlag : Obligations.AddToIndexSetsThresholdFlag := by
  intro x s
  rw [exec_addI]
  refine ⟨_, rfl, indexSum_toNat x s, ?flag, rfl, unchanged_setFlagAndI s _ _ _⟩
  case flag =>
    exact (State.reg_setReg_same s vf (indexFlag (indexSum x s))).trans (flagByte_decide _)

/-- The shape of a random load: the register is read back, and one draw is consumed. -/
theorem complete_takeDraw (x : RegIdx) (v : Byte) (s : State) :
    ∃ t, complete .next (s.takeDraw.setReg x v) = .next t ∧ t.reg x = v ∧
      t.driver = { s.driver with draws := s.driver.draws.tail, drawn := s.driver.drawn + 1 } ∧ t.pc = s.pc + 2 ∧
      Unchanged { reg := fun r => r = x, draws := True } s t :=
  ⟨{ s.takeDraw.setReg x v with pc := s.pc + 2 }, rfl, State.reg_setReg_same s.takeDraw x v, rfl, rfl,
    unchanged_takeDraw s x v (s.pc + 2)⟩

/-- Settles O31: whatever the next byte is, it is masked and one draw is consumed. -/
theorem randomIsMaskedDraw : Obligations.RandomIsMaskedDraw := by
  intro x kk s
  obtain ⟨t, done, value, driver, pc, frame⟩ := complete_takeDraw x (s.nextDraw &&& kk) s
  rw [exec_rnd]
  refine ⟨t, done, fun b rest draws => ⟨?fixed, ?fixedDriver⟩, fun draws => ⟨?free, ?freeDriver⟩, ?masked, pc, frame⟩
  case fixed => rw [value, nextDraw_cons draws]
  case fixedDriver => simp [driver, draws]
  case free => rw [value, nextDraw_nil draws]
  case freeDriver => simp [driver, draws]
  case masked => simp [value, BitVec.and_assoc]

/-- Settles O40: each of the two is the write of `I` alone, and neither product is reduced. -/
theorem glyphAddressesAreProducts : Obligations.GlyphAddressesAreProducts := by
  intro x s
  rw [exec_ldF, exec_ldHF]
  exact ⟨⟨_, rfl, glyphAddress_toNat _, rfl, unchanged_setI s _ _⟩,
    ⟨_, rfl, largeGlyphAddress_toNat _, rfl, unchanged_setI s _ _⟩⟩

end Sys2Proof.Machine
end

section
/-! Proofs about the data accesses at `I`: decimal store, register store and load (48_timer_misc.md R226 to R229), their
range check (20_memory.md R64, R65), and a store that the next fetch reads (R73). -/

namespace Sys2Proof.Machine

/-! ## The instructions, by what their range check answers -/

section
variable {x y : RegIdx} {n : Nibble} {s : State}

theorem exec_drw_of_none (h : badAddress (dataBase s) n.toNat = none) : exec (.drw x y n) s = complete .next
    { s.setReg vf (flagByte (drawResult x y n s).2) with disp := (drawResult x y n s).1, redrawPending := true } := by
  simp only [exec, execDrw, h]

theorem exec_ldB_of_none (h : badAddress (dataBase s) 3 = none) : exec (.ldB x) s =
    complete .next { s with mem := Memory.writeBytes s.mem (dataBase s) (decimalDigits (s.reg x)) } := by
  simp only [exec, execLdB, h]

theorem exec_stRegs_of_none (h : badAddress (dataBase s) (regCount x) = none) : exec (.stRegs x) s =
    complete .next { s with mem := Memory.writeBytes s.mem (dataBase s) (regBytes s x) } := by
  simp only [exec, execStRegs, h]

theorem exec_ldRegs_of_none (h : badAddress (dataBase s) (regCount x) = none) : exec (.ldRegs x) s =
    complete .next { s with V := loadedRegs s x } := by
  simp only [exec, execLdRegs, h]

variable {bad : Nat}

theorem exec_drw_of_some (h : badAddress (dataBase s) n.toNat = some bad) :
    exec (.drw x y n) s = raise (addressFault (.drw x y n) bad) s := by
  simp only [exec, execDrw, h]

theorem exec_ldB_of_some (h : badAddress (dataBase s) 3 = some bad) :
    exec (.ldB x) s = raise (addressFault (.ldB x) bad) s := by
  simp only [exec, execLdB, h]

theorem exec_stRegs_of_some (h : badAddress (dataBase s) (regCount x) = some bad) :
    exec (.stRegs x) s = raise (addressFault (.stRegs x) bad) s := by
  simp only [exec, execStRegs, h]

theorem exec_ldRegs_of_some (h : badAddress (dataBase s) (regCount x) = some bad) :
    exec (.ldRegs x) s = raise (addressFault (.ldRegs x) bad) s := by
  simp only [exec, execLdRegs, h]

end

/-! ## What was stored, and what was loaded -/

/-- The shape of both stores: byte `k` is read back at `I + k`, and the frame is `bytesAtI`. -/
theorem complete_writeBytes (vs : List Byte) (s : State) :
    ∃ t, complete .next { s with mem := Memory.writeBytes s.mem (dataBase s) vs } = .next t ∧
      (∀ k (h : k < vs.length), Memory.read t.mem (s.I.toNat + k) = vs[k]) ∧ t.pc = s.pc + 2 ∧
      Unchanged (bytesAtI s vs.length) s t := by
  refine ⟨_, rfl, fun k hk => ?_, rfl, unchanged_writeBytes s vs _⟩
  refine (Memory.read_writeBytes s.mem (dataBase s) vs _).trans ?_
  simp [dataBase, hk]

/-- Digit `k` of a byte is less than 256, so storing it loses nothing. -/
theorem decimalDigits_toNat (v : Byte) :
    (decimalDigits v)[0].toNat = v.toNat / 100 ∧ (decimalDigits v)[1].toNat = v.toNat / 10 % 10 ∧
      (decimalDigits v)[2].toNat = v.toNat % 10 := by
  have := v.isLt
  simp only [decimalDigits, List.getElem_cons_zero, List.getElem_cons_succ, BitVec.toNat_ofNat]
  omega

/-- Settles O41: the bytes stored are the three digits. -/
theorem decimalStoreWritesThreeDigits : Obligations.DecimalStoreWritesThreeDigits := by
  intro x s h
  obtain ⟨t, done, stored, pc, frame⟩ := complete_writeBytes (decimalDigits (s.reg x)) s
  obtain ⟨hundreds, tens, units⟩ := decimalDigits_toNat (s.reg x)
  rw [exec_ldB_of_none (badAddress_eq_none.mpr (.inr h))]
  refine ⟨t, done, ?_, ?_, ?_, pc, frame⟩
  · exact (congrArg BitVec.toNat (stored 0 (by simp))).trans hundreds
  · exact (congrArg BitVec.toNat (stored 1 (by simp))).trans tens
  · exact (congrArg BitVec.toNat (stored 2 (by simp))).trans units

/-- Settles O42: the bytes stored are the registers in order. -/
theorem registerStoreWritesV0ToVx : Obligations.RegisterStoreWritesV0ToVx := by
  intro x s h
  obtain ⟨t, done, stored, pc, frame⟩ := complete_writeBytes (regBytes s x) s
  rw [length_regBytes] at frame
  rw [exec_stRegs_of_none (badAddress_eq_none.mpr (.inr h))]
  refine ⟨t, done, fun r hr => ?_, pc, frame⟩
  have listed : r.toNat < (regBytes s x).length := by
    rw [length_regBytes]
    exact Nat.lt_succ_of_le hr
  rw [stored r.toNat listed, getElem_regBytes, BitVec.ofNat_toNat, BitVec.setWidth_eq]

/-- Settles O43: the registers up to `x` are those `loadedRegs` takes from memory. -/
theorem registerLoadReadsV0ToVx : Obligations.RegisterLoadReadsV0ToVx := by
  intro x s h
  have counted (r : RegIdx) : r.toNat < regCount x ↔ r.toNat ≤ x.toNat := Nat.lt_succ_iff
  have frame := unchanged_loadedRegs s x (s.pc + 2)
  simp only [counted] at frame
  rw [exec_ldRegs_of_none (badAddress_eq_none.mpr (.inr h))]
  exact ⟨_, rfl, fun r hr => (reg_loadedRegs s x r).trans (if_pos ((counted r).mpr hr)), rfl, frame⟩

/-! ## Out of range -/

/-- The lowest bad address as a word: 0x1000, or `I` where `I` itself is beyond memory. -/
theorem addressFault_max (i : Instr) (a : Word) : addressFault i (max a.toNat 4096) =
    { code := .addressOutOfRange, opcode := encodeWord i, address := if a.toNat < 4096 then 0x1000 else a, value := 0 } := by
  unfold addressFault
  congr 1
  split
  · rw [max_eq_right (by omega)]
    rfl
  · rw [max_eq_left (by omega), BitVec.ofNat_toNat, BitVec.setWidth_eq]

/-- Settles O44: the range check answers the larger of `I` and 4096, and each of the four raises it. -/
theorem dataAccessFaultsOutOfRange : Obligations.DataAccessFaultsOutOfRange := by
  intro i n s form nonzero beyond
  have bad : badAddress (dataBase s) n = some (max s.I.toNat 4096) :=
    badAddress_eq_some.mpr ⟨nonzero, beyond, rfl⟩
  have raises : exec i s = raise (addressFault i (max s.I.toNat 4096)) s := by
    obtain ⟨x, y, k, rfl, rfl⟩ | ⟨x, rfl, rfl⟩ | ⟨x, rfl, rfl⟩ | ⟨x, rfl, rfl⟩ := form
    · exact exec_drw_of_some bad
    · exact exec_ldB_of_some bad
    · exact exec_stRegs_of_some bad
    · exact exec_ldRegs_of_some bad
  rw [raises, addressFault_max]
  rfl

/-! ## A store over the next instruction word (R73) -/

/-- Settles O10: the store leaves `pc` at `I`, where the bytes read are `V0` and `V1`. -/
theorem storeIsSeenByNextFetch : Obligations.StoreIsSeenByNextFetch := by
  intro x s t even base two inRange execs
  obtain ⟨t', execs', stored, pc, -⟩ := registerStoreWritesV0ToVx x s inRange
  obtain rfl : t = t' := by rw [execs] at execs'; exact Host.Outcome.next.inj execs'
  have atI : t.pc.toNat = s.I.toNat := by
    rw [pc, BitVec.toNat_add, base]
    have : (2 : Word).toNat = 2 := rfl
    omega
  have valid : PcValid t := ⟨by omega, by omega⟩
  have high : Memory.read t.mem s.I.toNat = s.reg 0 := stored 0 (Nat.zero_le _)
  have low : Memory.read t.mem (s.I.toNat + 1) = s.reg 1 := stored 1 two
  rw [fetch_ok valid, wordAtPc, atI, high, low]

end Sys2Proof.Machine
end

section
/-! Proofs about the sprite draw of height 0 and the sprite drawn twice (46_sprite_draw.md R205, R207). -/

namespace Sys2Proof.Machine

/-- R205: with no row to draw there is no address to check, no pixel to change and no collision. -/
theorem exec_drw_zero (x y : RegIdx) (s : State) :
    exec (.drw x y 0) s = complete .next { s.setReg vf 0 with redrawPending := true } := rfl

/-- Settles O33: the draw is the write of `VF` and the redraw flag. -/
theorem drawOfHeightZero : Obligations.DrawOfHeightZero := by
  intro x y s
  rw [exec_drw_zero]
  have frame := unchanged_setReg s vf 0 (s.pc + 2)
  exact ⟨_, rfl, rfl, State.reg_setReg_same s vf 0, rfl, rfl, { frame with redraw := fun h => absurd trivial h }⟩

section
variable {x y : RegIdx} {n : Nibble} {s t : State}

/-- R207: a second draw from the same coordinates and bytes takes back what the first did, position by position. -/
theorem pixel_drawResult_twice (sameX : t.reg x = s.reg x) (sameY : t.reg y = s.reg y) (sameI : t.I = s.I)
    (sameMem : ∀ a, Memory.read t.mem a = Memory.read s.mem a) (drawn : t.disp = (drawResult x y n s).1)
    (row : Fin 32) (col : Fin 64) :
    Display.pixel (drawResult x y n t).1 row col = Display.pixel s.disp row col := by
  by_cases covered : ∃ r c, r < n.toNat ∧ c < 8 ∧ row.val = ((s.reg y).toNat + r) % 32 ∧
      col.val = ((s.reg x).toNat + c) % 64
  · obtain ⟨r, c, hr, hc, hrow, hcol⟩ := covered
    have first := pixel_drawResult_of_covered x y n s hr hc hrow hcol
    rw [← sameY] at hrow
    rw [← sameX] at hcol
    rw [pixel_drawResult_of_covered x y n t hr hc hrow hcol, drawn, first, sameI, sameMem, Bool.xor_assoc,
      Bool.xor_self, Bool.xor_false]
  · have first := pixel_drawResult_of_not_covered x y n s covered
    rw [← sameX, ← sameY] at covered
    rw [pixel_drawResult_of_not_covered x y n t covered, drawn, first]

end

/-- Settles O34: the first draw leaves coordinates, `I` and memory as they were, so the second flips the same pixels back;
a pixel that was 0 under a sprite bit stands at 1 after the first, so the second erases it. -/
theorem drawTwiceRestoresDisplay : Obligations.DrawTwiceRestoresDisplay := by
  intro x y n s t inRange hx hy execs
  obtain ⟨t', done, drawn, -, -, -, frame⟩ :=
    complete_draw (flagByte (drawResult x y n s).2) (drawResult x y n s).1 s
  obtain rfl : t = t' := by
    rw [exec_drw_of_inRange x y inRange, done] at execs
    exact (Host.Outcome.next.inj execs).symm
  have sameX : t.reg x = s.reg x := frame.reg x hx
  have sameY : t.reg y = s.reg y := frame.reg y hy
  have sameI : t.I = s.I := frame.I not_false
  have sameMem (a : Nat) : Memory.read t.mem a = Memory.read s.mem a := frame.mem a not_false
  obtain ⟨u, done', disp, flag, -⟩ := complete_draw (flagByte (drawResult x y n t).2) (drawResult x y n t).1 t
  rw [exec_drw_of_inRange x y (sameI ▸ inRange)]
  refine ⟨u, done', ?restored, ?collides⟩
  case restored =>
    rw [disp]
    exact Display.ext_pixel (pixel_drawResult_twice sameX sameY sameI sameMem drawn)
  case collides =>
    rintro ⟨r, c, row, col, hr, hc, hrow, hcol, old, bit⟩
    have first := pixel_drawResult_of_covered x y n s hr hc hrow hcol
    rw [flag, flagByte_eq_one, drawResult_collides_iff, sameX, sameY, sameI, drawn]
    refine ⟨r, c, row, col, hr, hc, hrow, hcol, ?_, ?_⟩
    · rw [first, old, Bool.false_xor]
      exact bit
    · rw [sameMem]
      exact bit

end Sys2Proof.Machine
end

section
/-! Proofs about every instruction: it completes or raises, its faults are precise (60_exceptions.md R269, R271), and it
stays inside its row of the access table (10_state.md R43). -/

namespace Sys2Proof.Machine

/-! ## What every instruction can do -/

/-- How an instruction that completes moves control: what it makes of the stack, and which actions go with that. -/
inductive ControlFlow (s u : State) : Action → Prop where
  | advance (c : Bool) (stack : u.stack = s.stack) (SP : u.SP = s.SP) : ControlFlow s u (skipIf c)
  | jump {p : Word} (bound : p.toNat ≤ 0x10FE) (stack : u.stack = s.stack) (SP : u.SP = s.SP) : ControlFlow s u (.jump p)
  | call {p : Word} (bound : p.toNat ≤ 0x10FE) (pushed : s.push (s.pc + 2) = some u) : ControlFlow s u (.jump p)
  | ret {p : Word} (popped : s.pop = some (p, u)) : ControlFlow s u (.jump p)

/-- What holds of the state `u` to which an instruction that completes applies its action `a`: `pc` still to be moved, no
fault raised, the driver's moves kept, memory kept or bytes stored from `I` inside it, and the control flow. -/
structure Completes (s : State) (a : Action) (u : State) : Prop where
  pc : u.pc = s.pc
  fault : u.fault = s.fault
  moves : u.driver.moves = s.driver.moves
  mem : u.mem = s.mem ∨
    ∃ vs : List Byte, dataBase s + vs.length ≤ 4096 ∧ u.mem = Memory.writeBytes s.mem (dataBase s) vs
  flow : ControlFlow s u a

/-- Everything `exec` can do: complete, or raise the instruction's own kind of fault with its opcode word. -/
def CompletesOrRaises (i : Instr) (s : State) : Prop :=
  (∃ a u, exec i s = complete a u ∧ Completes s a u) ∨
    ∃ r : FaultRecord, exec i s = raise r s ∧ faultKind i = some r.code ∧ r.opcode = encodeWord i

section
variable {i : Instr} {s u : State}

/-- The instructions that touch neither memory nor the stack and take the action `Next` or a skip. -/
theorem completesOrRaises_advance (c : Bool) (h : exec i s = complete (skipIf c) u) (pc : u.pc = s.pc := by rfl)
    (fault : u.fault = s.fault := by rfl) (moves : u.driver.moves = s.driver.moves := by rfl)
    (mem : u.mem = s.mem := by rfl) (stack : u.stack = s.stack := by rfl) (SP : u.SP = s.SP := by rfl) :
    CompletesOrRaises i s :=
  .inl ⟨_, u, h, pc, fault, moves, .inl mem, .advance c stack SP⟩

/-- The instructions that store bytes from `I` on. -/
theorem completesOrRaises_store (vs : List Byte)
    (h : exec i s = complete .next { s with mem := Memory.writeBytes s.mem (dataBase s) vs })
    (inRange : dataBase s + vs.length ≤ 4096) : CompletesOrRaises i s :=
  .inl ⟨_, _, h, rfl, rfl, rfl, .inr ⟨vs, inRange, rfl⟩, .advance false rfl rfl⟩

theorem completesOrRaises_jump {p : Word} (h : exec i s = complete (.jump p) s) (bound : p.toNat ≤ 0x10FE) :
    CompletesOrRaises i s :=
  .inl ⟨_, s, h, rfl, rfl, rfl, .inl rfl, .jump bound rfl rfl⟩

theorem completesOrRaises_raise {r : FaultRecord} (h : exec i s = raise r s) (kind : faultKind i = some r.code)
    (opcode : r.opcode = encodeWord i) : CompletesOrRaises i s :=
  .inr ⟨r, h, kind, opcode⟩

end

theorem addrOperand_le (nnn : Addr12) : (addrOperand nnn).toNat ≤ 0x10FE := by
  have := nnn.isLt
  rw [addrOperand_toNat]
  omega

theorem indexedTarget_le (nnn : Addr12) (s : State) : (indexedTarget nnn s).toNat ≤ 0x10FE := by
  have := nnn.isLt
  have := (s.reg 0).isLt
  rw [indexedTarget_toNat]
  omega

theorem completesOrRaises_ret (ign : Nibble) (s : State) : CompletesOrRaises (.ret ign) s := by
  by_cases empty : s.SP.val = 0
  · exact completesOrRaises_raise (exec_ret_of_empty ign empty) rfl rfl
  · obtain ⟨r, u, popped⟩ := exists_pop_of_ne_zero empty
    obtain ⟨-, -, -, -, -, rest⟩ := pop_eq_some popped
    exact .inl ⟨_, u, exec_ret_of_pop ign popped, by rw [rest], by rw [rest], by rw [rest], .inl (by rw [rest]),
      .ret popped⟩

theorem completesOrRaises_call (nnn : Addr12) (s : State) : CompletesOrRaises (.call nnn) s := by
  by_cases full : s.SP.val = 16
  · exact completesOrRaises_raise (exec_call_of_full nnn full) rfl rfl
  · obtain ⟨u, pushed⟩ := exists_push_of_lt (s := s) (s.pc + 2) (by omega)
    obtain ⟨-, -, -, rest⟩ := push_eq_some pushed
    exact .inl ⟨_, u, exec_call_of_push nnn pushed, by rw [rest], by rw [rest], by rw [rest], .inl (by rw [rest]),
      .call (addrOperand_le nnn) pushed⟩

theorem completesOrRaises (i : Instr) (s : State) : CompletesOrRaises i s := by
  cases i with
  | cls ign => exact completesOrRaises_advance false (exec_cls ign s)
  | ret ign => exact completesOrRaises_ret ign s
  | jp nnn => exact completesOrRaises_jump (exec_jp nnn s) (addrOperand_le nnn)
  | call nnn => exact completesOrRaises_call nnn s
  | jpV0 nnn => exact completesOrRaises_jump (exec_jpV0 nnn s) (indexedTarget_le nnn s)
  | seImm x kk => exact completesOrRaises_advance _ (exec_seImm x kk s)
  | sneImm x kk => exact completesOrRaises_advance _ (exec_sneImm x kk s)
  | seReg x y ign => exact completesOrRaises_advance _ (exec_seReg x y ign s)
  | sneReg x y ign => exact completesOrRaises_advance _ (exec_sneReg x y ign s)
  | ldImm x kk => exact completesOrRaises_advance false (exec_ldImm x kk s)
  | addImm x kk => exact completesOrRaises_advance false (exec_addImm x kk s)
  | ldReg x y => exact completesOrRaises_advance false (exec_ldReg x y s)
  | orReg x y => exact completesOrRaises_advance false (exec_orReg x y s)
  | andReg x y => exact completesOrRaises_advance false (exec_andReg x y s)
  | xorReg x y => exact completesOrRaises_advance false (exec_xorReg x y s)
  | addReg x y => exact completesOrRaises_advance false (exec_addReg x y s)
  | subReg x y => exact completesOrRaises_advance false (exec_subReg x y s)
  | shr x y => exact completesOrRaises_advance false (exec_shr x y s)
  | subn x y => exact completesOrRaises_advance false (exec_subn x y s)
  | shl x y => exact completesOrRaises_advance false (exec_shl x y s)
  | ldI nnn => exact completesOrRaises_advance false (exec_ldI nnn s)
  | addI x => exact completesOrRaises_advance false (exec_addI x s)
  | rnd x kk => exact completesOrRaises_advance false (exec_rnd x kk s)
  | drw x y n =>
    cases range : badAddress (dataBase s) n.toNat with
    | none => exact completesOrRaises_advance false (exec_drw_of_none range)
    | some bad => exact completesOrRaises_raise (exec_drw_of_some range) rfl rfl
  | skp x =>
    cases key : keyState s (s.reg x) with
    | none => exact completesOrRaises_raise (exec_skp_of_no_key key) rfl rfl
    | some pressed => exact completesOrRaises_advance pressed (exec_skp_of_key key)
  | sknp x =>
    cases key : keyState s (s.reg x) with
    | none => exact completesOrRaises_raise (exec_sknp_of_no_key key) rfl rfl
    | some pressed => exact completesOrRaises_advance _ (exec_sknp_of_key key)
  | ldVxDT x => exact completesOrRaises_advance false (exec_ldVxDT x s)
  | ldVxK x => exact completesOrRaises_advance false (exec_ldVxK x s)
  | ldDTVx x => exact completesOrRaises_advance false (exec_ldDTVx x s)
  | ldSTVx x => exact completesOrRaises_advance false (exec_ldSTVx x s)
  | ldF x => exact completesOrRaises_advance false (exec_ldF x s)
  | ldHF x => exact completesOrRaises_advance false (exec_ldHF x s)
  | ldB x =>
    cases range : badAddress (dataBase s) 3 with
    | none =>
      exact completesOrRaises_store _ (exec_ldB_of_none range) ((badAddress_eq_none.mp range).resolve_left (by decide))
    | some bad => exact completesOrRaises_raise (exec_ldB_of_some range) rfl rfl
  | stRegs x =>
    cases range : badAddress (dataBase s) (regCount x) with
    | none =>
      refine completesOrRaises_store _ (exec_stRegs_of_none range) ?_
      rw [length_regBytes]
      exact (badAddress_eq_none.mp range).resolve_left (Nat.succ_ne_zero _)
    | some bad => exact completesOrRaises_raise (exec_stRegs_of_some range) rfl rfl
  | ldRegs x =>
    cases range : badAddress (dataBase s) (regCount x) with
    | none => exact completesOrRaises_advance false (exec_ldRegs_of_none range)
    | some bad => exact completesOrRaises_raise (exec_ldRegs_of_some range) rfl rfl

/-- The same of a next state that `exec` answered. -/
theorem exec_cases {i : Instr} {s t : State} (h : exec i s = .next t) :
    (∃ a u, t = { u with pc := actionTarget a s.pc } ∧ Completes s a u) ∨
      ∃ r : FaultRecord, t = { s with fault := some r } ∧ faultKind i = some r.code ∧ r.opcode = encodeWord i := by
  obtain ⟨a, u, execs, completes⟩ | ⟨r, execs, kind, opcode⟩ := completesOrRaises i s
  · rw [execs] at h
    exact .inl ⟨a, u, completes.pc ▸ complete_eq_next.mp h, completes⟩
  · rw [execs] at h
    exact .inr ⟨r, raise_eq_next.mp h, kind, opcode⟩

theorem exists_next_of_exec (i : Instr) (s : State) : ∃ t, exec i s = .next t := by
  obtain ⟨a, u, execs, -⟩ | ⟨r, execs, -⟩ := completesOrRaises i s
  · exact ⟨_, execs⟩
  · exact ⟨_, execs⟩

/-! ## Faults and frames -/

/-- Settles O11: what completes latches nothing, and what raises latches its own record and does nothing else. -/
theorem faultsArePreciseAndOfTheirKind : Obligations.FaultsArePreciseAndOfTheirKind := by
  intro i s t noFault execs faulted
  obtain ⟨a, u, rfl, completes⟩ | raises := exec_cases execs
  · exact absurd (completes.fault.trans noFault) faulted
  · exact raises

/-- Settles O12: what latches a fault is excluded, and everything else stays inside its footprint. -/
theorem instructionsChangeOnlyTheirFootprint : Obligations.InstructionsChangeOnlyTheirFootprint := by
  intro i s t _ execs noFault
  obtain ⟨r, rfl⟩ | frame := exec_latches_or_unchanged execs
  · cases noFault
  · exact frame

end Sys2Proof.Machine
end

section
/-! Proofs about fetch, decode and the tick as a whole (40_engine_fetch_decode_actions.md R121 to R131,
49_tick_timer_input_wait.md R240 to R249). -/

namespace Sys2Proof.Machine

/-! ## A running tick that raises -/

/-- R248: a raise ends the tick with the latch set and no count-down. -/
theorem step_of_raise {k : Keys} {s : State} {r : FaultRecord} (runs : RunsWith k s)
    (h : engineStep (tickStart k s) = raise r (tickStart k s)) :
    step s = .next { tickStart k s with fault := some r } := by
  rw [step_running runs, h]
  rfl

/-- Settles O5: by families the words are those that the second selector leaves out; the tick raises at decode. -/
theorem unimplementedWordsAreExactlyThese : Obligations.UnimplementedWordsAreExactlyThese := by
  refine ⟨fun w => ?_, fun k s runs valid undefined => ?_⟩
  · rw [decodeWord_eq_none_iff, decodeFamily0_eq_none_iff, decodeFamily8_eq_none_iff, decodeFamilyE_eq_none_iff,
      decodeFamilyF_eq_none_iff]
  · exact step_of_raise runs (engineStep_of_unimplemented (s := tickStart k s) valid undefined)

section
variable {s : State}

/-- D26: the range check comes first, so an odd `pc` beyond memory is out of range. -/
theorem fetch_of_beyond (h : 4096 ≤ s.pc.toNat) : fetch s = .error (fetchFault .addressOutOfRange s.pc) := by
  unfold fetch
  rw [if_pos (by simp only [Config.memSize]; omega), if_pos h]

/-- The first byte at 4095 is in memory, the second is not. -/
theorem fetch_of_last (h : s.pc.toNat = 4095) : fetch s = .error (fetchFault .addressOutOfRange 0x1000) := by
  have next : s.pc + 1 = 0x1000 := by
    apply BitVec.eq_of_toNat_eq
    rw [BitVec.toNat_add, h]
    rfl
  unfold fetch
  rw [if_pos (by simp only [Config.memSize]; omega), if_neg (by simp only [Config.memSize]; omega), next]

theorem fetch_of_odd (h : s.pc.toNat < 4095) (odd : s.pc.toNat % 2 = 1) :
    fetch s = .error (fetchFault .misalignedPC s.pc) := by
  unfold fetch
  rw [if_neg (by simp only [Config.memSize]; omega), if_pos odd]

end

/-- Settles O9: in each of the three ranges the fetch answers its record, which the tick raises. -/
theorem fetchFaultsInOrder : Obligations.FetchFaultsInOrder := by
  refine fun k s runs => ⟨fun beyond => ?_, fun last => ?_, fun inside odd => ?_⟩
  · exact step_of_raise runs (engineStep_of_bad_pc (fetch_of_beyond (s := tickStart k s) beyond))
  · exact step_of_raise runs (engineStep_of_bad_pc (fetch_of_last (s := tickStart k s) last))
  · exact step_of_raise runs (engineStep_of_bad_pc (fetch_of_odd (s := tickStart k s) inside odd))

/-! ## A running tick that executes -/

/-- Decoding exactly two bytes is decoding their word. -/
theorem decodeWord_of_decode_pair {hi lo : Byte} {i : Instr} {rest : List Byte} (h : decode [hi, lo] = .ok (i, rest)) :
    decodeWord (wordOf hi lo) = some i := by
  simp only [decode] at h
  split at h
  case h_1 j decodes =>
    cases h
    exact decodes
  case h_2 => cases h

/-- Settles O8: the tick is `exec` of the decoded instruction, ended by the count-down unless it raised. -/
theorem stepRunsDecodedInstruction : Obligations.StepRunsDecodedInstruction := by
  intro k i s t runs valid decodes execs
  have engine : engineStep (tickStart k s) = exec i (tickStart k s) :=
    engineStep_of_decode (s := tickStart k s) valid (decodeWord_of_decode_pair decodes)
  rw [step_running runs, engine, execs]
  split
  case isTrue noFault => exact endTick_of_noFault noFault
  case isFalse faulted => exact endTick_of_fault faulted

/-- Settles O48: a running tick that executes to the end latches nothing, so the tick was one that latched. -/
theorem faultingTickOnlyLatches : Obligations.FaultingTickOnlyLatches := by
  intro k s t runs h faulted
  obtain ⟨r, rfl⟩ | ⟨-, i, u, -, -, frame, rfl⟩ := step_running_cases runs h
  · rfl
  · exact absurd (frame.fault.trans runs.2.1) faulted

/-! ## Every step -/

/-- What one step can be: a reset; a tick of a halted machine, of a waiting one, or of a running one. -/
theorem step_cases (s : State) :
    (∃ g p, s.nextMove = .reset g p ∧ step s = .next (resetWith g p s.takeMove.driver)) ∨
    ∃ k, s.nextMove = .tick k ∧
      ((s.fault ≠ none ∧ step s = .next s.takeMove) ∨
        (s.fault = none ∧ s.awaitingKey = true ∧ step s = .next (tickStart k s).scan) ∨ RunsWith k s) := by
  cases move : s.nextMove with
  | reset g p => exact .inl ⟨g, p, rfl, step_reset move⟩
  | tick k =>
    refine .inr ⟨k, rfl, ?_⟩
    by_cases noFault : s.fault = none
    · cases waiting : s.awaitingKey with
      | true => exact .inr (.inl ⟨noFault, rfl, step_waiting move noFault waiting⟩)
      | false => exact .inr (.inr ⟨move, noFault, waiting⟩)
    · exact .inl ⟨noFault, step_halted move noFault⟩

theorem exists_next_of_engineStep (s : State) : ∃ t, engineStep s = .next t := by
  unfold engineStep
  split
  · exact ⟨_, rfl⟩
  · split
    · exact ⟨_, rfl⟩
    · exact exists_next_of_exec _ s

theorem exists_next_of_endTick (t : State) : ∃ u, endTick (.next t) = .next u := by
  by_cases noFault : t.fault = none
  · exact ⟨_, endTick_of_noFault noFault⟩
  · exact ⟨_, endTick_of_fault noFault⟩

/-- Settles O13: every instruction completes or raises, and a raise is a next state too. -/
theorem everyStepAnswersNext : Obligations.EveryStepAnswersNext := by
  refine ⟨exists_next_of_exec, fun s => ?_⟩
  obtain ⟨g, p, -, resets⟩ | ⟨k, -, ⟨-, halted⟩ | ⟨-, -, waiting⟩ | runs⟩ := step_cases s
  · exact ⟨_, resets⟩
  · exact ⟨_, halted⟩
  · exact ⟨_, waiting⟩
  · obtain ⟨t, engine⟩ := exists_next_of_engineStep (tickStart k s)
    rw [step_running runs, engine]
    exact exists_next_of_endTick t

/-! ## The wait, the latch and the display -/

/-- Settles O39: the instruction writes the two wait elements, and a waiting machine scans at its next tick. -/
theorem keyWaitIsEntered : Obligations.KeyWaitIsEntered := by
  intro x s
  rw [exec_ldVxK]
  exact ⟨_, rfl, rfl, rfl, rfl, unchanged_setWait s true x _, fun k noFault ticks => step_waiting ticks noFault rfl⟩

theorem resetWith_of_fits {p : List Byte} (h : p.length ≤ 3584) (g : Vector Byte 80) (d : Driver) : resetWith g p d =
    { State.reset with mem := Memory.writeBytes (glyphMemory g) Config.programBase p, driver := d } :=
  if_neg (Nat.not_lt.mpr h)

theorem resetWith_of_long {p : List Byte} (h : 3584 < p.length) (g : Vector Byte 80) (d : Driver) : resetWith g p d =
    { State.reset with mem := glyphMemory g, fault := some loadFault, driver := d } :=
  if_pos h

/-- Settles O45: a halted tick takes the driver's move alone, and a reset that fits latches nothing. -/
theorem haltedUntilReset : Obligations.HaltedUntilReset := by
  refine fun s faulted => ⟨fun k ticks => step_halted ticks faulted, fun g p resets fits => ?_⟩
  rw [step_reset resets, resetWith_of_fits fits]
  exact ⟨_, rfl, rfl, rfl, rfl⟩

@[simp] theorem State.scan_disp (s : State) : s.scan.disp = s.disp := by
  unfold State.scan
  split <;> rfl

/-- R33: in the access table only clear-screen and the sprite draw write the display. -/
theorem footprint_disp_iff (i : Instr) (s : State) : (footprint i s).disp ↔ touchesDisplay i := by
  cases i <;> simp [footprint, touchesDisplay, onlyReg, regAndFlag, bytesAtI]

/-- Settles O50: halted, scanning and faulting ticks keep the display, and so does an instruction that has it not in its
footprint. -/
theorem onlyDrawAndClearChangeDisplay : Obligations.OnlyDrawAndClearChangeDisplay := by
  intro k s t ticks h changed
  obtain ⟨g, p, resets, -⟩ | ⟨k', ticks', ⟨-, halted⟩ | ⟨-, -, waiting⟩ | runs⟩ := step_cases s
  · rw [ticks] at resets
    cases resets
  · rw [halted] at h
    cases h
    exact absurd rfl changed
  · rw [waiting] at h
    cases h
    exact absurd (State.scan_disp _) changed
  · rw [ticks] at ticks'
    cases ticks'
    obtain ⟨r, rfl⟩ | ⟨valid, i, u, decodes, -, frame, rfl⟩ := step_running_cases runs h
    · exact absurd rfl changed
    · refine ⟨runs, valid, i, decodes, ?_⟩
      by_contra untouched
      exact changed (frame.disp (mt (footprint_disp_iff i _).mp untouched))

end Sys2Proof.Machine
end

section
/-! Proofs about the invariants (10_state.md R28, 20_memory.md R60, R64) and about what a reset initialises
(70_reset_and_hazards.md R290 to R292). -/

namespace Sys2Proof.Machine

/-! ## An invariant of every step -/

/-- A running tick latches a fault alone, or completes an instruction at a valid `pc` and counts the timers down. -/
theorem step_running_completes {k : Keys} {s t : State} (runs : RunsWith k s) (h : step s = .next t) :
    (∃ r, t = { tickStart k s with fault := some r }) ∨
    (PcValid s ∧ ∃ a u, Completes (tickStart k s) a u ∧ t = State.countDown { u with pc := actionTarget a s.pc }) := by
  obtain latched | ⟨valid, i, u, -, execs, frame, rfl⟩ := step_running_cases runs h
  · exact .inl latched
  · obtain ⟨a, v, rfl, completes⟩ | ⟨r, rfl, -⟩ := exec_cases execs
    · exact .inr ⟨valid, a, v, completes, rfl⟩
    · have latched : some r = s.fault := frame.fault
      rw [runs.2.1] at latched
      cases latched

@[simp] theorem State.scan_mem (s : State) : s.scan.mem = s.mem := by
  unfold State.scan
  split <;> rfl

@[simp] theorem State.scan_pc (s : State) : s.scan.pc = s.pc := by
  unfold State.scan
  split <;> rfl

@[simp] theorem State.scan_stack (s : State) : s.scan.stack = s.stack := by
  unfold State.scan
  split <;> rfl

@[simp] theorem State.scan_SP (s : State) : s.scan.SP = s.SP := by
  unfold State.scan
  split <;> rfl

/-- A property of memory, `pc` and the stack that every reset establishes and every completed instruction keeps, every
step keeps: no other kind of step writes any of these. -/
theorem step_keeps {P : State → Prop} (reset : ∀ g p d, P (resetWith g p d))
    (same : ∀ s t : State, P s → t.mem = s.mem → t.pc = s.pc → t.stack = s.stack → t.SP = s.SP → P t)
    (completed : ∀ s a u, PcValid s → Completes s a u → P s → P { u with pc := actionTarget a s.pc })
    {s t : State} (holds : P s) (h : step s = .next t) : P t := by
  obtain ⟨g, p, -, resets⟩ | ⟨k, -, ⟨-, halted⟩ | ⟨-, -, waiting⟩ | runs⟩ := step_cases s
  · rw [resets] at h
    cases h
    exact reset g p _
  · rw [halted] at h
    cases h
    exact same s _ holds rfl rfl rfl rfl
  · rw [waiting] at h
    cases h
    exact same s _ holds (State.scan_mem _) (State.scan_pc _) (State.scan_stack _) (State.scan_SP _)
  · obtain ⟨r, rfl⟩ | ⟨valid, a, u, completes, rfl⟩ := step_running_completes runs h
    · exact same s _ holds rfl rfl rfl rfl
    · have started : P (tickStart k s) := same s _ holds rfl rfl rfl rfl
      exact same _ _ (completed (tickStart k s) a u valid completes started) rfl rfl rfl rfl

/-! ## Memory in its canonical form -/

theorem glyphMemory_wf (g : Vector Byte 80) : Memory.wf (glyphMemory g) :=
  Memory.writeBytes_wf Memory.nil_wf (by simp)

theorem memCanonical_resetWith (g : Vector Byte 80) (p : List Byte) (d : Driver) : MemCanonical (resetWith g p d) := by
  by_cases fits : p.length ≤ 3584
  · rw [resetWith_of_fits fits]
    exact Memory.writeBytes_wf (glyphMemory_wf g) (by simp only [Config.programBase]; omega)
  · rw [resetWith_of_long (by omega)]
    exact glyphMemory_wf g

theorem Completes.memCanonical {s u : State} {a : Action} (completes : Completes s a u) (h : MemCanonical s) :
    MemCanonical u := by
  unfold MemCanonical at h ⊢
  obtain kept | ⟨vs, inRange, stored⟩ := completes.mem
  · rwa [kept]
  · rw [stored]
    exact Memory.writeBytes_wf h inRange

/-- Settles O52: a completed instruction keeps memory or stores inside it, and a store inside memory keeps its form. -/
theorem stepKeepsMemoryCanonical : Obligations.StepKeepsMemoryCanonical := by
  refine fun s t => step_keeps (P := MemCanonical) memCanonical_resetWith ?_ ?_
  · intro s t h mem _ _ _
    rwa [MemCanonical, mem]
  · exact fun s a u _ completes h => completes.memCanonical h

/-- Settles O53: the empty list is canonical, and a reset stores the table and the program inside memory. -/
theorem resetMemoryIsCanonical : Obligations.ResetMemoryIsCanonical := ⟨Memory.nil_wf, memCanonical_resetWith⟩

/-! ## `pc` and the held return addresses -/

/-- Every return address held is even and at most 4096: the stack's half of `ControlBounded`. -/
def HeldBounded (s : State) : Prop :=
  ∀ k (h : k < 16), k < s.SP.val → (s.stack[k]).toNat ≤ 4096 ∧ (s.stack[k]).toNat % 2 = 0

theorem controlBounded_iff {s : State} : ControlBounded s ↔ s.pc.toNat ≤ 0x10FE ∧ HeldBounded s := Iff.rfl

section
variable {s u : State}

theorem HeldBounded.congr (stack : u.stack = s.stack) (SP : u.SP = s.SP) (h : HeldBounded s) : HeldBounded u := by
  rwa [HeldBounded, stack, SP]

/-- A push holds one address more, the one pushed. -/
theorem HeldBounded.push {r : Word} (h : HeldBounded s) (pushed : s.push r = some u) (le : r.toNat ≤ 4096)
    (even : r.toNat % 2 = 0) : HeldBounded u := by
  obtain ⟨room, count, slots, -⟩ := push_eq_some pushed
  intro k hk held
  simp only [slots, Vector.getElem_set]
  split
  case isTrue => exact ⟨le, even⟩
  case isFalse other => exact h k hk (by omega)

/-- A pop answers an address that was held, and holds one less. -/
theorem HeldBounded.pop {r : Word} (h : HeldBounded s) (popped : s.pop = some (r, u)) :
    r.toNat ≤ 4096 ∧ HeldBounded u := by
  obtain ⟨j, hj, before, after, rfl, rest⟩ := pop_eq_some popped
  have slots : u.stack = s.stack := by rw [rest]
  refine ⟨(h j hj (by omega)).1, fun k hk held => ?_⟩
  simp only [slots]
  exact h k hk (by omega)

/-- The return address of a call at a valid `pc`. -/
theorem toNat_pc_add_two (valid : PcValid s) : (s.pc + 2).toNat = s.pc.toNat + 2 := by
  obtain ⟨-, le⟩ := valid
  rw [BitVec.toNat_add]
  exact Nat.mod_eq_of_lt (Nat.lt_of_le_of_lt (Nat.add_le_add_right le 2) (by decide))

theorem toNat_actionTarget_skipIf_le (valid : PcValid s) (c : Bool) :
    (actionTarget (skipIf c) s.pc).toNat ≤ 0x10FE := by
  obtain ⟨-, le⟩ := valid
  rw [actionTarget_skipIf, BitVec.toNat_add]
  cases c with
  | false =>
    have : (2 : Word).toNat = 2 := rfl
    simp only [Bool.false_eq_true, if_false]
    omega
  | true =>
    have : (4 : Word).toNat = 4 := rfl
    simp only [if_true]
    omega

/-- R28: from a valid `pc` an advance stays below 4100, a jump and a call go where their operands reach, a return where a
call came from. -/
theorem Completes.controlBounded {a : Action} (completes : Completes s a u) (valid : PcValid s)
    (h : ControlBounded s) : ControlBounded { u with pc := actionTarget a s.pc } := by
  obtain ⟨-, held⟩ := controlBounded_iff.mp h
  cases completes.flow with
  | advance c stack SP => exact ⟨toNat_actionTarget_skipIf_le valid c, held.congr stack SP⟩
  | jump bound stack SP => exact ⟨bound, held.congr stack SP⟩
  | call bound pushed =>
    have pushedBound := toNat_pc_add_two valid
    obtain ⟨even, le⟩ := valid
    exact ⟨bound, (held.push pushed (by omega) (by omega)).congr rfl rfl⟩
  | ret popped =>
    obtain ⟨bound, below⟩ := held.pop popped
    exact ⟨bound.trans (by decide), below.congr rfl rfl⟩

end

theorem controlBounded_of_empty {s : State} (pc : s.pc = 0x200) (SP : s.SP = 0) : ControlBounded s := by
  refine ⟨by rw [pc]; decide, fun k _ held => ?_⟩
  rw [SP] at held
  exact absurd held (Nat.not_lt_zero k)

@[simp] theorem resetWith_SP (g : Vector Byte 80) (p : List Byte) (d : Driver) : (resetWith g p d).SP = 0 := by
  unfold resetWith
  split
  · rfl
  · rfl

theorem controlBounded_resetWith (g : Vector Byte 80) (p : List Byte) (d : Driver) :
    ControlBounded (resetWith g p d) :=
  controlBounded_of_empty (resetWith_pc g p d) (resetWith_SP g p d)

/-- Settles O54: only a completed instruction moves `pc` or the stack, and it does so from a valid `pc`. -/
theorem stepKeepsControlBounded : Obligations.StepKeepsControlBounded := by
  refine fun s t => step_keeps (P := ControlBounded) controlBounded_resetWith ?_ ?_
  · intro s t h _ pc stack SP
    obtain ⟨bound, held⟩ := controlBounded_iff.mp h
    exact ⟨pc ▸ bound, held.congr stack SP⟩
  · exact fun s a u valid completes h => completes.controlBounded valid h

/-- Settles O55: after a reset `pc` is 0x200 and no return address is held. -/
theorem resetControlIsBounded : Obligations.ResetControlIsBounded :=
  ⟨controlBounded_of_empty rfl rfl, controlBounded_resetWith⟩

/-! ## Everything a reset initialises -/

/-- A reset is State.reset but for memory, the latch and the driver, which is kept. -/
theorem resetWith_eq (g : Vector Byte 80) (p : List Byte) (d : Driver) : resetWith g p d =
    { State.reset with mem := (resetWith g p d).mem, fault := (resetWith g p d).fault, driver := d } := by
  by_cases fits : p.length ≤ 3584
  · rw [resetWith_of_fits fits]
  · rw [resetWith_of_long (by omega)]

theorem State.reset_reg (r : RegIdx) : State.reset.reg r = 0 := Vector.getElem_replicate _

theorem State.reset_pixel (r : Fin 32) (c : Fin 64) : Display.pixel State.reset.disp r c = false :=
  Display.pixel_blank r c

/-- Below the program memory holds the glyph table and zeroes, whether or not the program fits. -/
theorem read_resetWith_below (g : Vector Byte 80) (p : List Byte) (d : Driver) {a : Nat} (h : a < 512) :
    Memory.read (resetWith g p d).mem a = if h : a < 80 then g[a] else 0 := by
  by_cases fits : p.length ≤ 3584
  · rw [read_resetWith fits, dif_neg (by omega)]
  · exact read_resetWith_of_long (by omega) g d a

/-- Settles O57: memory is read address by address, and every other element is that of State.reset. -/
theorem resetInitialisesEverything : Obligations.ResetInitialisesEverything := by
  intro s g p resets
  refine ⟨_, step_reset resets, fun a ha => ?glyphs, fun a ha ha' => ?gap, fun fits => ⟨?noFault, fun a ha => ?program,
    fun a ha => ?after⟩, fun long => ⟨?latched, fun a ha => ?nothingCopied⟩, ?elements⟩
  case glyphs => rw [read_resetWith_below g p _ (by omega), dif_pos ha]
  case gap => rw [read_resetWith_below g p _ ha', dif_neg (by omega)]
  case noFault => rw [resetWith_of_fits fits]; rfl
  case program => exact read_resetWith_program fits g _ ha
  case after => rw [read_resetWith fits, dif_neg (by omega), dif_neg (by omega)]
  case latched => rw [resetWith_of_long long]; rfl
  case nothingCopied => rw [read_resetWith_of_long long, dif_neg (by omega)]
  case elements =>
    rw [resetWith_eq]
    exact ⟨State.reset_reg, rfl, rfl, fun _ _ => Vector.getElem_replicate _, rfl, rfl, rfl, State.reset_pixel, rfl,
      fun _ _ => Vector.getElem_replicate _, rfl, rfl, rfl⟩

end Sys2Proof.Machine
end

section
/-! Proofs about the word placed for the next step (log 4) and about the end of a run (70_reset_and_hazards.md R298, log 22). -/

namespace Sys2Proof.Machine

/-! ## The placed word -/

theorem fetchablePC_spec (pc : Word) : (fetchablePC pc).toNat % 2 = 0 ∧ (fetchablePC pc).toNat ≤ 4094 := by
  unfold fetchablePC
  split
  case isTrue fetchable =>
    simp only [Config.memSize] at fetchable
    omega
  case isFalse => decide

theorem pcValid_placeWord (s : State) (w : Word) : PcValid (s.placeWord w) := fetchablePC_spec s.pc

/-- The two bytes written at `pc` are the word read there. -/
theorem wordAtPc_placeWord (s : State) (w : Word) : wordAtPc (s.placeWord w) = w := by
  have byte (k : Nat) (hk : k < (wordBytes w).length) :
      Memory.read (s.placeWord w).mem ((fetchablePC s.pc).toNat + k) = (wordBytes w)[k] := by
    refine (Memory.read_writeBytes s.mem (fetchablePC s.pc).toNat (wordBytes w) _).trans ?_
    simp [hk]
  have high : Memory.read (s.placeWord w).mem (s.placeWord w).pc.toNat = hiByte w := byte 0 (by simp [wordBytes])
  have low : Memory.read (s.placeWord w).mem ((s.placeWord w).pc.toNat + 1) = loByte w := byte 1 (by simp [wordBytes])
  rw [wordAtPc, high, low]
  exact wordOf_hiByte_loByte w

/-- A driver that has no reset ahead of its next tick ticks next. -/
theorem nextMove_isTick_of_head {s : State} (h : ∀ m ∈ s.driver.moves.head?, m.isReset = false) :
    ∃ k, s.nextMove = .tick k := by
  cases moves : s.driver.moves with
  | nil => exact ⟨_, nextMove_nil moves⟩
  | cons m rest =>
    rw [moves] at h
    cases m with
    | tick k => exact ⟨k, nextMove_cons moves⟩
    | reset g p => cases h _ rfl

theorem exists_runsWith_placeWord (s : State) (w : Word) : ∃ k, RunsWith k (s.placeWord w) := by
  have ahead : ∀ m ∈ (s.placeWord w).driver.moves.head?, m.isReset = false := by
    intro m first
    have head : (s.driver.moves.dropWhile DriverMove.isReset).head? = some m := first
    simpa [head] using List.head?_dropWhile_not DriverMove.isReset s.driver.moves
  obtain ⟨k, ticks⟩ := nextMove_isTick_of_head ahead
  exact ⟨k, ticks, rfl, rfl⟩

/-- Settles O58: the placed word stands at a valid `pc`, and nothing keeps the next move from running it. -/
theorem placedWordRunsNext : Obligations.PlacedWordRunsNext := by
  intro s w i decodes
  obtain ⟨k, runs⟩ := exists_runsWith_placeWord s (tableWord 16 w)
  have placed : decodeWord (wordAtPc (s.placeWord (tableWord 16 w))) = some i := by
    rw [wordAtPc_placeWord, ← decodeTableWord_eq, decodes]
  have engine : engineStep (tickStart k (s.placeWord (tableWord 16 w))) =
      exec i (tickStart k (s.placeWord (tableWord 16 w))) :=
    engineStep_of_decode (pcValid_placeWord s (tableWord 16 w)) placed
  refine ⟨k, runs, ?_⟩
  rw [State.withFetchWord, step_running runs, engine]

/-! ## A jump to its own address -/

section
variable {s : State}

theorem addrOperand_setWidth_pc (valid : PcValid s) : addrOperand (s.pc.setWidth 12) = s.pc := by
  obtain ⟨-, le⟩ := valid
  apply BitVec.eq_of_toNat_eq
  rw [addrOperand_toNat, BitVec.toNat_setWidth]
  omega

/-- The word of a jump is 0x1000 and its operand. -/
theorem toNat_encodeWord_jp (nnn : Addr12) : (encodeWord (.jp nnn)).toNat = 0x1000 + nnn.toNat := by
  show ((1#4 : Nibble) ++ nnn).toNat = _
  rw [BitVec.toNat_append, ← Nat.shiftLeft_add_eq_or_of_lt nnn.isLt]
  rfl

theorem toNat_encodeWord_selfJump (valid : PcValid s) :
    (encodeWord (.jp (s.pc.setWidth 12))).toNat = 0x1000 + s.pc.toNat := by
  rw [toNat_encodeWord_jp, ← addrOperand_toNat, addrOperand_setWidth_pc valid]

/-- D29: the word the model compares with is 0x1000 + `pc`, as the statement says with numbers. -/
theorem idling_iff : s.idling = true ↔
    s.awaitingKey = false ∧ PcValid s ∧ (wordAtPc s).toNat = 0x1000 + s.pc.toNat := by
  unfold State.idling
  rw [Bool.and_eq_true, Bool.not_eq_true']
  refine and_congr_right fun _ => ?_
  cases fetched : fetch s with
  | error r =>
    have invalid : ¬ PcValid s := fun valid => by
      rw [fetch_ok valid] at fetched
      cases fetched
    simp [invalid]
  | ok w =>
    obtain ⟨valid, rfl⟩ := fetch_eq_ok.mp fetched
    simp [valid, ← toNat_encodeWord_selfJump valid, BitVec.toNat_inj]

theorem runEnd_eq_done_iff : s.runEnd = some .done ↔ Idle s := by
  cases latch : s.fault with
  | some r => simp [runEnd_of_fault latch, Idle, latch]
  | none => simp [runEnd_of_no_fault latch, Idle, latch, idling_iff]

theorem runEnd_eq_faulted_iff {r : FaultRecord} : s.runEnd = some (.faulted r) ↔ s.fault = some r := by
  cases latch : s.fault with
  | some r' => simp [runEnd_of_fault latch]
  | none => simp [runEnd_of_no_fault latch]

theorem runEnd_eq_none_iff : s.runEnd = none ↔ s.fault = none ∧ ¬ Idle s := by
  rw [← runEnd_eq_done_iff]
  cases latch : s.fault with
  | some r => simp [runEnd_of_fault latch]
  | none => simp [runEnd_of_no_fault latch]

end

/-- Settles O59: the latch decides between the two ends, and idling is the statement's condition in numbers. -/
theorem runEndIsFaultOrSelfJump : Obligations.RunEndIsFaultOrSelfJump :=
  fun _ => ⟨runEnd_eq_done_iff, fun _ => runEnd_eq_faulted_iff, runEnd_eq_none_iff⟩

/-! ## After the end -/

/-- The instruction an idle machine runs leaves the tick's start as it is. -/
theorem step_of_idle {k : Keys} {s : State} (ticks : s.nextMove = .tick k) (idle : Idle s) :
    step s = .next (tickStart k s).countDown := by
  obtain ⟨noFault, running, valid, word⟩ := idle
  have selfJump : wordAtPc s = encodeWord (.jp (s.pc.setWidth 12)) :=
    BitVec.eq_of_toNat_eq (word.trans (toNat_encodeWord_selfJump valid).symm)
  have decodes : decodeWord (wordAtPc s) = some (.jp (s.pc.setWidth 12)) := by rw [selfJump, decodeWord_encodeWord]
  have execs : exec (.jp (s.pc.setWidth 12)) (tickStart k s) = .next (tickStart k s) := by
    rw [exec_jp, addrOperand_setWidth_pc valid]
    rfl
  exact step_of_exec ⟨ticks, noFault, running⟩ valid decodes execs noFault

theorem OnlyTicks.nextMove {s : State} (h : OnlyTicks s) : ∃ k, s.nextMove = .tick k :=
  nextMove_isTick_of_head fun m first => h m (List.mem_of_mem_head? first)

/-- Taking a move off a list without resets leaves none. -/
theorem OnlyTicks.of_moves {s t : State} (h : OnlyTicks s) (moves : t.driver.moves = s.driver.moves.tail) :
    OnlyTicks t := by
  intro m listed
  rw [moves] at listed
  exact h m (List.mem_of_mem_tail listed)

@[simp] theorem State.scan_driver (s : State) : s.scan.driver = s.driver := by
  unfold State.scan
  split <;> rfl

/-- No instruction touches the driver's moves, so a tick takes one off and no more. -/
theorem OnlyTicks.step {s t : State} (h : OnlyTicks s) (steps : step s = .next t) : OnlyTicks t := by
  obtain ⟨g, p, resets, -⟩ | ⟨k, -, ⟨-, halted⟩ | ⟨-, -, waiting⟩ | runs⟩ := step_cases s
  · obtain ⟨k, ticks⟩ := h.nextMove
    rw [ticks] at resets
    cases resets
  · rw [halted] at steps
    cases steps
    exact h.of_moves rfl
  · rw [waiting] at steps
    cases steps
    exact h.of_moves (congrArg Driver.moves (State.scan_driver _))
  · obtain ⟨r, rfl⟩ | ⟨-, a, u, completes, rfl⟩ := step_running_completes runs steps
    · exact h.of_moves rfl
    · exact h.of_moves completes.moves

theorem OnlyTicks.runFor {n : Nat} {s t : State} (h : OnlyTicks s) (run : runFor n s = .next t) : OnlyTicks t := by
  induction n generalizing s with
  | zero =>
    cases run
    exact h
  | succ n ih =>
    obtain ⟨u, steps⟩ := everyStepAnswersNext.2 s
    rw [runFor_succ_of_next steps] at run
    exact ih (h.step steps) run

/-- One step after an end: the latch stays, and an idle machine stays idle. -/
theorem runEnd_of_step {s t : State} {e : RunEnd} (h : OnlyTicks s) (ended : s.runEnd = some e)
    (steps : step s = .next t) : t.runEnd = some e := by
  obtain ⟨k, ticks⟩ := h.nextMove
  cases e with
  | done =>
    have idle := runEnd_eq_done_iff.mp ended
    rw [step_of_idle ticks idle] at steps
    cases steps
    exact runEnd_eq_done_iff.mpr idle
  | faulted r =>
    have latched := runEnd_eq_faulted_iff.mp ended
    rw [step_halted ticks (by rw [latched]; exact Option.some_ne_none r)] at steps
    cases steps
    exact runEnd_eq_faulted_iff.mpr latched

theorem runFor_of_ended {s : State} {e : RunEnd} (n : Nat) (h : OnlyTicks s) (ended : s.runEnd = some e) :
    ∃ t, runFor n s = .next t ∧ t.runEnd = some e := by
  induction n generalizing s with
  | zero => exact ⟨s, rfl, ended⟩
  | succ n ih =>
    obtain ⟨u, steps⟩ := everyStepAnswersNext.2 s
    rw [runFor_succ_of_next steps]
    exact ih (h.step steps) (runEnd_of_step h ended steps)

/-- A run goes on from where its first `n` steps lead. -/
theorem runFor_add_of_next {n : Nat} {s t : State} (run : runFor n s = .next t) (m : Nat) :
    runFor (n + m) s = runFor m t := by
  induction n generalizing s with
  | zero =>
    cases run
    rw [Nat.zero_add]
  | succ n ih =>
    obtain ⟨u, steps⟩ := everyStepAnswersNext.2 s
    rw [runFor_succ_of_next steps] at run
    rw [Nat.succ_add, runFor_succ_of_next steps, ih run]

/-- Settles O60: an idle machine runs its jump and counts the timers down; a run from an end on stays at that end, and a
longer run is one from the state that showed it. -/
theorem endedRunStaysEnded : Obligations.EndedRunStaysEnded := by
  refine ⟨fun k s ticks done => step_of_idle ticks (runEnd_eq_done_iff.mp done), ?_⟩
  rintro s n e onlyTicks ⟨⟨t, run, ended⟩, -⟩ m le
  obtain ⟨d, rfl⟩ := Nat.exists_eq_add_of_le le
  rw [runFor_add_of_next run]
  exact runFor_of_ended d (onlyTicks.runFor run) ended

end Sys2Proof.Machine
end
